-- ==== Sys2Proof/Word.lean ====
section
/-! DEFINITION. The word types of the engine and nothing else (00_scope.md R5, R7: `XLEN` = 8, `ILEN` = `PCLEN` = 16,
all unsigned; 30_encoding.md R61: the widths of the operand fields). -/

namespace Sys2Proof

/-- A general register, a timer, a memory byte or an immediate byte `kk`: 8 bits, unsigned (R5 `XLEN`). -/
abbrev Byte := BitVec 8

/-- `PC`, `I`, a stack entry or an instruction word: 16 bits, unsigned (R5 `ILEN`, `PCLEN`, `STACK_ENTRY`). -/
abbrev Word := BitVec 16

/-- A register index `x` or `y`: 4 bits, every value names a register (R10, R61). -/
abbrev Reg := BitVec 4

/-- The immediate nibble `n`: 4 bits (R61). -/
abbrev Nibble := BitVec 4

/-- The address field `nnn`: 12 bits (R61). -/
abbrev Addr := BitVec 12

end Sys2Proof
end

