-- ==== Sys2Proof/Config.lean ====
section
/-! DEFINITION. What this hardware fixes (00_scope.md R5), the parameters the model takes as an argument, with the defaults
every rule and test vector of the spec uses (R5; 10_state.md R20(f)), and the free inputs of a step, which nothing fixes
(R20(d), (e)). -/

namespace Sys2Proof.Config

/-! ### Fixed by the document (R5) -/

/-- `MEM_SIZE`: 4096 bytes, addresses 0x000..0xFFF (R18, R40). -/
def memSize : Nat := 0x1000

/-- `FONT_BASE` (R41). -/
def fontBase : Nat := 0x50

/-- `GLYPH_BYTES`: 5 bytes a glyph (R41). -/
def glyphBytes : Nat := 5

/-- `PROG_BASE`: load address and reset value of `PC` (R13, R183). -/
def progBase : Nat := 0x200

/-- `PROG_MAX`: the largest loadable program, 0x1000 - 0x200 bytes (R146, R183). -/
def progMax : Nat := 3584

/-- `TIMER_DIV`: steps per timer decrement (R16). -/
def timerDiv : Nat := 3

/-- `DISP_W` (R155). -/
def dispW : Nat := 64

/-- `DISP_H` (R155). -/
def dispH : Nat := 32

/-- What a stack entry that nothing has pushed reads as: unspecified and unobservable (R14, R24). DESIGN CHOICE: log entry 9. -/
def stackInit : Word := 0

end Sys2Proof.Config

namespace Sys2Proof

/-- The implementation parameters (R5): what the document leaves open and "the model takes it as an argument". The argument
of `State.resetWith`, held in the state from then on and changed by no step (R20(f): "parameters of the initial state";
log entry 28). -/
structure Params where
  /-- `STACK_DEPTH` (R14): the call-stack capacity, none for the document's unbounded design. -/
  stackDepth : Option Nat
  /-- `NKEYS` (R159): the number of keys the Keypad knows. -/
  nkeys : Nat
  /-- `MEM_INIT` (R41): every memory byte not covered by the font or the program at reset. -/
  memInit : Byte
  /-- `ADDI_STRICT` (R103, 90_conflicts.md C2): whether a sum of exactly 0x1000 leaves `VF` 0. -/
  addiStrict : Bool
  /-- `FONT[0..79]` (R42). -/
  font : Vector Byte 80
  /-- `FB_INIT` (R156): the framebuffer when the engine leaves reset. -/
  fbInit : Vector (Vector Bool 64) 32
  deriving DecidableEq, Repr

end Sys2Proof

namespace Sys2Proof.Config

/-! ### The defaults of the parameters -/

/-- Glyphs 0 to 7 of the default `FONT` (R42). -/
def fontLow : List Byte :=
  [0xF0, 0x90, 0x90, 0x90, 0xF0] ++ [0x20, 0x60, 0x20, 0x20, 0x70] ++
  [0xF0, 0x10, 0xF0, 0x80, 0xF0] ++ [0xF0, 0x10, 0xF0, 0x10, 0xF0] ++
  [0x90, 0x90, 0xF0, 0x10, 0x10] ++ [0xF0, 0x80, 0xF0, 0x10, 0xF0] ++
  [0xF0, 0x80, 0xF0, 0x90, 0xF0] ++ [0xF0, 0x10, 0x20, 0x40, 0x40]

/-- Glyphs 8 to F of the default `FONT` (R42). -/
def fontHigh : List Byte :=
  [0xF0, 0x90, 0xF0, 0x90, 0xF0] ++ [0xF0, 0x90, 0xF0, 0x10, 0xF0] ++
  [0xF0, 0x90, 0xF0, 0x90, 0x90] ++ [0xE0, 0x90, 0xE0, 0x90, 0xE0] ++
  [0xF0, 0x80, 0x80, 0x80, 0xF0] ++ [0xE0, 0x90, 0x90, 0x90, 0xE0] ++
  [0xF0, 0x80, 0xF0, 0x80, 0xF0] ++ [0xF0, 0x80, 0xF0, 0x80, 0x80]

/-- The default `FONT[0..79]` (R42). PRESUMED (the customary table, the spec's D4): log entry 3. -/
def font : Vector Byte 80 := ⟨(fontLow ++ fontHigh).toArray, rfl⟩

/-- The parameters at the spec's defaults (R5): 16 stack entries (D8: log entry 2), 16 keys (D23: log entry 13), `MEM_INIT`
0x00 (D3: log entry 4), strict `ADD I,Vx` (D15: log entry 7), the customary font (D4: log entry 3), all pixels off (D25: log
entry 11). -/
def defaultParams : Params :=
  { stackDepth := some 16
    nkeys := 16
    memInit := 0x00#8
    addiStrict := true
    font := font
    fbInit := Vector.replicate 32 (Vector.replicate 64 false) }

/-! ### Free inputs of a step: no body, so no proof knows a value of theirs (log entry 12) -/

/-- The byte `Random()` supplies at the `k`-th committed step (R161). -/
opaque randomByte : Nat → BitVec 8

/-- What the Keypad answers to `keyPressed` at the `k`-th committed step; a step asks at most once (R159). -/
opaque keyPressed : Nat → Bool

/-- What the Keypad answers to `waitForKeyPress` at the `k`-th committed step: none, or an index; one that
is no key's counts as none (R160, `keyIndexAnswer`). -/
opaque keyWait : Nat → Option (BitVec 8)

end Sys2Proof.Config
end

