-- ==== Sys2Proof/Syntax.lean ====
section
/-! DEFINITION. The instructions: one constructor per row of spec/opcode_table.json (30_encoding.md R65), the 34 defined
operations and `<unknown>` (R67). Operand types are exactly the widths of the fields of R61, so that an operand out of
range cannot be written down. -/

namespace Sys2Proof

/-- The 35 operations of the instruction_dispatcher (R64, R65, R70). -/
inductive Instr where
  /-- `00E0` `CLS` (R80). -/
  | cls
  /-- `00EE` `RET` (R81). -/
  | ret
  /-- `1nnn` `JP addr` (R84). -/
  | jpAddr (nnn : Addr)
  /-- `2nnn` `CALL addr` (R86). -/
  | callAddr (nnn : Addr)
  /-- `3xkk` `SE Vx,byte` (R88). -/
  | seVxByte (x : Reg) (kk : Byte)
  /-- `4xkk` `SNE Vx,byte` (R89). -/
  | sneVxByte (x : Reg) (kk : Byte)
  /-- `5xy0` `SE Vx,Vy` (R90). -/
  | seVxVy (x y : Reg)
  /-- `6xkk` `LD Vx,byte` (R93). -/
  | ldVxByte (x : Reg) (kk : Byte)
  /-- `7xkk` `ADD Vx,byte` (R101). -/
  | addVxByte (x : Reg) (kk : Byte)
  /-- `8xy0` `LD Vx,Vy` (R94). -/
  | ldVxVy (x y : Reg)
  /-- `8xy1` `OR Vx,Vy` (R95). -/
  | orVxVy (x y : Reg)
  /-- `8xy2` `AND Vx,Vy` (R96). -/
  | andVxVy (x y : Reg)
  /-- `8xy3` `XOR Vx,Vy` (R97). -/
  | xorVxVy (x y : Reg)
  /-- `8xy4` `ADD Vx,Vy` (R102). -/
  | addVxVy (x y : Reg)
  /-- `8xy5` `SUB Vx,Vy` (R104). -/
  | subVxVy (x y : Reg)
  /-- `8xy6` `SHR Vx` (R106); `y` stands in the word and is ignored. It is kept here so that no bit of a word is lost (log entry 23). -/
  | shrVx (x y : Reg)
  /-- `8xy7` `SUBN Vx,Vy` (R105). -/
  | subnVxVy (x y : Reg)
  /-- `8xyE` `SHL Vx` (R107); `y` as in `shrVx`. -/
  | shlVx (x y : Reg)
  /-- `9xy0` `SNE Vx,Vy` (R91). -/
  | sneVxVy (x y : Reg)
  /-- `Annn` `LD I,addr` (R98). -/
  | ldIAddr (nnn : Addr)
  /-- `Bnnn` `JP V0+addr` (R85). -/
  | jpV0Addr (nnn : Addr)
  /-- `Cxkk` `RND Vx,byte` (R113). -/
  | rndVxByte (x : Reg) (kk : Byte)
  /-- `Dxyn` `DRW Vx,Vy,nibble` (R114). -/
  | drwVxVyNibble (x y : Reg) (n : Nibble)
  /-- `Ex9E` `SKP Vx` (R120). -/
  | skpVx (x : Reg)
  /-- `ExA1` `SKNP Vx` (R121). -/
  | sknpVx (x : Reg)
  /-- `Fx07` `LD Vx,DT` (R122). -/
  | ldVxDT (x : Reg)
  /-- `Fx0A` `LD Vx,K` (R125). -/
  | ldVxK (x : Reg)
  /-- `Fx15` `LD DT,Vx` (R123). -/
  | ldDTVx (x : Reg)
  /-- `Fx18` `LD ST,Vx` (R124). -/
  | ldSTVx (x : Reg)
  /-- `Fx1E` `ADD I,Vx` (R103). -/
  | addIVx (x : Reg)
  /-- `Fx29` `LD F,Vx` (R128). -/
  | ldFVx (x : Reg)
  /-- `Fx33` `LD B,Vx` (R129). -/
  | ldBVx (x : Reg)
  /-- `Fx55` `LD [I],Vx` (R130). -/
  | ldMemVx (x : Reg)
  /-- `Fx65` `LD Vx,[I]` (R131). -/
  | ldVxMem (x : Reg)
  /-- Any word that matches no other row: `<unknown>` (R66, R134), with the word it was read from (log entry 23). -/
  | unknown (w : Word)
  deriving DecidableEq, Repr

end Sys2Proof
end

