-- ==== Sys2Proof/Decode.lean ====
section
/-! DEFINITION. The instruction_dispatcher (30_encoding.md R60 to R70): from bytes to an instruction, total, and the encoder
written from the same map (R65). The opcode numbers are the customary ones the spec supplies (R65, D5: log entry 5). -/

namespace Sys2Proof

/-! ### The fields of a word (R61) -/

/-- `c = w[15:12]`, the opcode class (R61). -/
def fieldC (w : Word) : BitVec 4 := w.extractLsb' 12 4

/-- `x = w[11:8]` (R61). -/
def fieldX (w : Word) : Reg := w.extractLsb' 8 4

/-- `y = w[7:4]` (R61). -/
def fieldY (w : Word) : Reg := w.extractLsb' 4 4

/-- `n = w[3:0]` (R61). -/
def fieldN (w : Word) : Nibble := w.extractLsb' 0 4

/-- `kk = w[7:0]` (R61). -/
def fieldKK (w : Word) : Byte := w.extractLsb' 0 8

/-- `nnn = w[11:0]` (R61). -/
def fieldNNN (w : Word) : Addr := w.extractLsb' 0 12

/-! ### The decoder (R64) -/

/-- Class 8: the low nibble selects the member, 8..D and F are `<unknown>` (R64, R66). -/
def decodeClass8 (w : Word) : Instr :=
  let x := fieldX w
  let y := fieldY w
  match fieldN w with
  | 0x0#4 => .ldVxVy x y
  | 0x1#4 => .orVxVy x y
  | 0x2#4 => .andVxVy x y
  | 0x3#4 => .xorVxVy x y
  | 0x4#4 => .addVxVy x y
  | 0x5#4 => .subVxVy x y
  | 0x6#4 => .shrVx x y
  | 0x7#4 => .subnVxVy x y
  | 0xE#4 => .shlVx x y
  | _ => .unknown w

/-- Class E: the low byte selects the member (R64, R66). -/
def decodeClassE (w : Word) : Instr :=
  match fieldKK w with
  | 0x9E#8 => .skpVx (fieldX w)
  | 0xA1#8 => .sknpVx (fieldX w)
  | _ => .unknown w

/-- Class F: the low byte selects the member (R64, R66). -/
def decodeClassF (w : Word) : Instr :=
  let x := fieldX w
  match fieldKK w with
  | 0x07#8 => .ldVxDT x
  | 0x0A#8 => .ldVxK x
  | 0x15#8 => .ldDTVx x
  | 0x18#8 => .ldSTVx x
  | 0x1E#8 => .addIVx x
  | 0x29#8 => .ldFVx x
  | 0x33#8 => .ldBVx x
  | 0x55#8 => .ldMemVx x
  | 0x65#8 => .ldVxMem x
  | _ => .unknown w

/-- The decomposition by class, after the two full words have been matched (R64). -/
def decodeByClass (w : Word) : Instr :=
  let x := fieldX w
  let y := fieldY w
  let kk := fieldKK w
  let nnn := fieldNNN w
  match fieldC w with
  | 0x0#4 => .unknown w
  | 0x1#4 => .jpAddr nnn
  | 0x2#4 => .callAddr nnn
  | 0x3#4 => .seVxByte x kk
  | 0x4#4 => .sneVxByte x kk
  | 0x5#4 => if fieldN w = 0 then .seVxVy x y else .unknown w
  | 0x6#4 => .ldVxByte x kk
  | 0x7#4 => .addVxByte x kk
  | 0x8#4 => decodeClass8 w
  | 0x9#4 => if fieldN w = 0 then .sneVxVy x y else .unknown w
  | 0xA#4 => .ldIAddr nnn
  | 0xB#4 => .jpV0Addr nnn
  | 0xC#4 => .rndVxByte x kk
  | 0xD#4 => .drwVxVyNibble x y (fieldN w)
  | 0xE#4 => decodeClassE w
  | _ => decodeClassF w

/-- `Decode(w)` (R64): a pure total function; the two full words are matched before the class (R64). -/
def decode (w : Word) : Instr :=
  if w = 0x00E0#16 then .cls
  else if w = 0x00EE#16 then .ret
  else decodeByClass w

/-- The instruction word of two bytes: big-endian, the byte at the lower address high (R44). -/
def wordOfBytes (hi lo : Byte) : Word := hi ++ lo

/-- The byte of a word that lies at the lower address (R44). -/
def highByte (w : Word) : Byte := w.extractLsb' 8 8

/-- The byte of a word that lies at the higher address (R44). -/
def lowByte (w : Word) : Byte := w.extractLsb' 0 8

/-- Why bytes are no instruction. No word is (R66); only a byte string can be too short. -/
inductive DecodeReject where
  /-- Fewer than the two bytes of an instruction word (R60). -/
  | truncated
  deriving DecidableEq, Repr

/-- The decoder over a byte string: the first instruction and the bytes after it, or the name of the reason there is
none. Total on any bytes (R60, R64, R67). -/
def decodeBytes : List Byte → Except DecodeReject (Instr × List Byte)
  | hi :: lo :: rest => .ok (decode (wordOfBytes hi lo), rest)
  | [_] => .error .truncated
  | [] => .error .truncated

/-! ### The encoder, from the same map (R65) -/

/-- The word of format XY: class, two registers, a low nibble (R62). -/
def wordXY (c : BitVec 4) (x y : Reg) (n : Nibble) : Word := c ++ x ++ y ++ n

/-- The word of formats XK and X: class, register, a byte (R62). -/
def wordXK (c : BitVec 4) (x : Reg) (kk : Byte) : Word := c ++ x ++ kk

/-- The word of format A: class and address (R62). -/
def wordA (c : BitVec 4) (nnn : Addr) : Word := c ++ nnn

/-- The word an instruction is written as (R65). -/
def encode : Instr → Word
  | .cls => 0x00E0#16
  | .ret => 0x00EE#16
  | .jpAddr nnn => wordA 0x1#4 nnn
  | .callAddr nnn => wordA 0x2#4 nnn
  | .seVxByte x kk => wordXK 0x3#4 x kk
  | .sneVxByte x kk => wordXK 0x4#4 x kk
  | .seVxVy x y => wordXY 0x5#4 x y 0x0#4
  | .ldVxByte x kk => wordXK 0x6#4 x kk
  | .addVxByte x kk => wordXK 0x7#4 x kk
  | .ldVxVy x y => wordXY 0x8#4 x y 0x0#4
  | .orVxVy x y => wordXY 0x8#4 x y 0x1#4
  | .andVxVy x y => wordXY 0x8#4 x y 0x2#4
  | .xorVxVy x y => wordXY 0x8#4 x y 0x3#4
  | .addVxVy x y => wordXY 0x8#4 x y 0x4#4
  | .subVxVy x y => wordXY 0x8#4 x y 0x5#4
  | .shrVx x y => wordXY 0x8#4 x y 0x6#4
  | .subnVxVy x y => wordXY 0x8#4 x y 0x7#4
  | .shlVx x y => wordXY 0x8#4 x y 0xE#4
  | .sneVxVy x y => wordXY 0x9#4 x y 0x0#4
  | .ldIAddr nnn => wordA 0xA#4 nnn
  | .jpV0Addr nnn => wordA 0xB#4 nnn
  | .rndVxByte x kk => wordXK 0xC#4 x kk
  | .drwVxVyNibble x y n => wordXY 0xD#4 x y n
  | .skpVx x => wordXK 0xE#4 x 0x9E#8
  | .sknpVx x => wordXK 0xE#4 x 0xA1#8
  | .ldVxDT x => wordXK 0xF#4 x 0x07#8
  | .ldVxK x => wordXK 0xF#4 x 0x0A#8
  | .ldDTVx x => wordXK 0xF#4 x 0x15#8
  | .ldSTVx x => wordXK 0xF#4 x 0x18#8
  | .addIVx x => wordXK 0xF#4 x 0x1E#8
  | .ldFVx x => wordXK 0xF#4 x 0x29#8
  | .ldBVx x => wordXK 0xF#4 x 0x33#8
  | .ldMemVx x => wordXK 0xF#4 x 0x55#8
  | .ldVxMem x => wordXK 0xF#4 x 0x65#8
  | .unknown w => w

/-- An instruction as the two bytes it occupies, the lower address first (R44, R60). -/
def encodeBytes (i : Instr) : List Byte := [highByte (encode i), lowByte (encode i)]

/-! ### The standalone decoder (R163) and the descriptor (R70) -/

/-- The canonical spelling of the operation (R65, R68); the exact text is not fixed by the spec (D31: log entry 25). -/
def Instr.mnemonic : Instr → String
  | .cls => "CLS"
  | .ret => "RET"
  | .jpAddr _ => "JP addr"
  | .callAddr _ => "CALL addr"
  | .seVxByte _ _ => "SE Vx,byte"
  | .sneVxByte _ _ => "SNE Vx,byte"
  | .seVxVy _ _ => "SE Vx,Vy"
  | .ldVxByte _ _ => "LD Vx,byte"
  | .addVxByte _ _ => "ADD Vx,byte"
  | .ldVxVy _ _ => "LD Vx,Vy"
  | .orVxVy _ _ => "OR Vx,Vy"
  | .andVxVy _ _ => "AND Vx,Vy"
  | .xorVxVy _ _ => "XOR Vx,Vy"
  | .addVxVy _ _ => "ADD Vx,Vy"
  | .subVxVy _ _ => "SUB Vx,Vy"
  | .shrVx _ _ => "SHR Vx"
  | .subnVxVy _ _ => "SUBN Vx,Vy"
  | .shlVx _ _ => "SHL Vx"
  | .sneVxVy _ _ => "SNE Vx,Vy"
  | .ldIAddr _ => "LD I,addr"
  | .jpV0Addr _ => "JP V0+addr"
  | .rndVxByte _ _ => "RND Vx,byte"
  | .drwVxVyNibble _ _ _ => "DRW Vx,Vy,nibble"
  | .skpVx _ => "SKP Vx"
  | .sknpVx _ => "SKNP Vx"
  | .ldVxDT _ => "LD Vx,DT"
  | .ldVxK _ => "LD Vx,K"
  | .ldDTVx _ => "LD DT,Vx"
  | .ldSTVx _ => "LD ST,Vx"
  | .addIVx _ => "ADD I,Vx"
  | .ldFVx _ => "LD F,Vx"
  | .ldBVx _ => "LD B,Vx"
  | .ldMemVx _ => "LD [I],Vx"
  | .ldVxMem _ => "LD Vx,[I]"
  | .unknown _ => "<unknown>"

/-- What the standalone decoder hands out: the mnemonic and the six fields of R61, which are "extracted from every word
whether or not the selected operation uses them" (R70, R163). -/
structure Descriptor where
  mnemonic : String
  c : BitVec 4
  x : Reg
  y : Reg
  n : Nibble
  kk : Byte
  nnn : Addr
  deriving DecidableEq, Repr

/-- `decode(word) -> (mnemonic, operands)`, the host's view of the same pure function (R163). -/
def standaloneDecode (w : Word) : Descriptor :=
  { mnemonic := (decode w).mnemonic, c := fieldC w, x := fieldX w, y := fieldY w, n := fieldN w,
    kk := fieldKK w, nnn := fieldNNN w }

/-! ### The host's question about a table row -/

/-- The instruction word whose table bits are `w`, of which the row gives `nbits` (bit 0 of `w` is bit 0 of the word). -/
def tableWord (nbits w : Nat) : Word := BitVec.ofNat 16 (w % 2 ^ nbits)

/-- What the decoder reads from the word with bits `w`, laid out big-endian as memory holds it (R44). -/
def decodeTableWord (nbits w : Nat) : Option Instr :=
  match decodeBytes [highByte (tableWord nbits w), lowByte (tableWord nbits w)] with
  | .ok (i, _) => some i
  | .error _ => none

end Sys2Proof
end

