-- ==== Sys2Proof/Machine/State.lean ====
section
/-! DEFINITION. The state of the engine and of the devices it calls, as plain data (10_state.md R10 to R20, 60_exceptions.md
R156), why a step can stop, and the state after reset (R24, R180). -/

namespace Sys2Proof.Machine

/-- The kind of a memory access that a `MemoryFault` records (R43, R141). -/
inductive AccessKind where
  /-- One of the two reads of the fetch phase. -/
  | fetch
  /-- A data read: `DRW`, `LD Vx,[I]`. -/
  | read
  /-- A data write: `LD B,Vx`, `LD [I],Vx`. -/
  | write
  deriving DecidableEq, Repr

/-- The four faults of the engine (R140), the values of `FAULT` other than none (R17). The spec describes what raising
one does (R144: only `FAULT` changes, the engine is halted) and that a halted engine is stepped without effect (R145), so
a fault is TAKEN: the step answers a next state that holds it. No meaning and no step of this model answers
`Host.Outcome.fault` (log entry 1). -/
inductive Fault where
  /-- Code 1. Raised by `RET` with an empty call stack (R142). Taken as a next state; safe. -/
  | stackUnderflow
  /-- Code 2. Raised by `CALL` with a full call stack (R143). Taken as a next state; safe (the depth is a
  parameter, log entry 2). -/
  | stackOverflow
  /-- Code 3. Raised by the fetch, `DRW`, `LD B,Vx`, `LD [I],Vx` and `LD Vx,[I]` on an access above 0xFFF, with the kind
  and the lowest out-of-range address, 17 bits (R141). Taken as a next state; safe. -/
  | memoryFault (kind : AccessKind) (addr : BitVec 17)
  /-- Code 4. Raised by the program load, never by a step (R146, R184). Taken as a next state; safe. -/
  | programTooLarge
  deriving DecidableEq, Repr

/-- Why a step has no meaning. -/
inductive Refusal where
  /-- Raised by an arm of `exec` whose instruction has no meaning yet; safe. No arm of this model does. -/
  | notModelled (mnemonic : String)
  deriving DecidableEq, Repr

/-- What the environment answers in one step, if it is asked (R20(d), (e)); a step asks each at most once. -/
structure StepInputs where
  /-- The byte of `Random()` (R161). -/
  rnd : Byte
  /-- The Keypad's answer to `keyPressed` (R159). -/
  keyPressed : Bool
  /-- The Keypad's answer to `waitForKeyPress`: none, or an index (R160; `keyIndexAnswer` in Devices.lean says which). -/
  keyWait : Option Byte
  deriving DecidableEq, Repr

/-- `MEM` as the bytes that differ from its reset contents: pairs of address and byte, addresses strictly rising
(`Memory.wf` in Ops.lean is the form). -/
abbrev Memory := List Host.Cell

/-- The framebuffer of the reference Display: `FB[y][x]`, 32 rows of 64 pixels, true = on (R156). -/
abbrev Framebuffer := Vector (Vector Bool 64) 32

/-- Everything the spec gives the machine (10_state.md section 1), the reference Display's framebuffer (R156), whether a
load is still accepted (R182), and the model's own fields: two for the free inputs (log entry 12) and the parameters the
engine was built with (log entry 28). -/
structure State where
  /-- `V[0]`..`V[15]`; `V[15]` is `VF` (R10, R11). -/
  v : Vector Byte 16
  /-- The index register `I` (R12). -/
  i : Word
  /-- `PC` (R13): between steps, the address of the next instruction. -/
  pc : Word
  /-- `STACK`, entry 0 first, up to the last entry written so far (R14); the others read as `Config.stackInit`. -/
  stack : List Word
  /-- `SP`, the number of stack entries in use (R14). -/
  sp : Nat
  /-- The delay timer (R15). -/
  dt : Byte
  /-- The sound timer (R15). -/
  st : Byte
  /-- The hidden modulo-3 cycle counter (R16). -/
  cyc : Fin Config.timerDiv
  /-- `FAULT` (R17): none while the engine runs. -/
  fault : Option Fault
  /-- `MEM` (R18). -/
  mem : Memory
  /-- The reference Display's framebuffer (R156), a device's state, not the engine's (R20(c)). -/
  fb : Framebuffer
  /-- Whether a program load is still accepted: no load and no step since reset (R182). -/
  loadOpen : Bool
  /-- The model's own: answers of the environment that are settled, one per coming step. Empty at reset (log entry 12). -/
  env : List StepInputs
  /-- The model's own: how many steps have drawn their inputs; picks the free value when `env` is empty (log entry 12). -/
  envCount : Nat
  /-- The model's own: the implementation parameters this engine was built with (R5, R20(f)); no step changes them. -/
  params : Params
  deriving DecidableEq, Repr

/-- An engine built with the parameters `p`, right after reset (R24, R180). `PC` is the document's; the other registers are
the spec's decided zeros (log entries 8, 10); no stack entry is written yet (log entry 9); memory lists nothing, so every
byte reads as the reset contents (log entries 3, 4); the framebuffer is `FB_INIT` (log entry 11). -/
def State.resetWith (p : Params) : State :=
  { v := Vector.replicate 16 0
    i := 0
    pc := BitVec.ofNat 16 Config.progBase
    stack := []
    sp := 0
    dt := 0
    st := 0
    cyc := ⟨0, by decide⟩
    fault := none
    mem := []
    fb := p.fbInit
    loadOpen := true
    env := []
    envCount := 0
    params := p }

/-- The machine right after reset, with every parameter at the spec's default (R5, R24). -/
def State.reset : State := State.resetWith Config.defaultParams

end Sys2Proof.Machine
end

