-- ==== Sys2Proof/Machine/Ops.lean ====
section
/-! DEFINITION. The named operations over registers, memory, stack, timers and inputs that every meaning is written with;
fetching an instruction's bytes; and raising a fault (R8, R13, R14, R21, R40 to R53, R140 to R145, R151). -/

namespace Sys2Proof.Machine

/-- What a meaning answers. -/
abbrev Result := Host.Outcome State Fault Refusal

/-! ### General registers (R10, R11) and the other registers -/

/-- `V[x]` (R10). -/
def State.getV (s : State) (x : Reg) : Byte := s.v[x.toNat]'(x.isLt)

/-- `V[x] <- b` (R10): exactly 8 bits, no register is hard-wired. -/
def State.setV (s : State) (x : Reg) (b : Byte) : State := { s with v := s.v.set x.toNat b x.isLt }

/-- The index of `VF`, the flag register: `V[15]` (R11). -/
def regVF : Reg := 0xF#4

/-- `I <- w` (R12). -/
def State.setI (s : State) (w : Word) : State := { s with i := w }

/-- `PC <- w` (R13). -/
def State.setPc (s : State) (w : Word) : State := { s with pc := w }

/-- `DT <- b` (R15). -/
def State.setDT (s : State) (b : Byte) : State := { s with dt := b }

/-- `ST <- b` (R15). -/
def State.setST (s : State) (b : Byte) : State := { s with st := b }

/-- The memory replaced as a whole. -/
def State.setMem (s : State) (m : Memory) : State := { s with mem := m }

/-- The framebuffer replaced as a whole. -/
def State.setFb (s : State) (f : Framebuffer) : State := { s with fb := f }

/-! ### Memory (R40 to R53) -/

/-- What an address that no cell lists reads as: the reset contents, `FONT` at 0x050..0x09F and `MEM_INIT` everywhere else
(R41, R42; log entries 3, 4). -/
def initByte (p : Params) (a : Nat) : Byte :=
  if h : Config.fontBase ≤ a ∧ a < Config.fontBase + 80 then p.font[a - Config.fontBase]'(by omega) else p.memInit

/-- One byte of memory (R43, R47). -/
def Memory.read (p : Params) : Memory → Nat → Byte
  | [], a => initByte p a
  | (k, b) :: m, a => if a = k then b else Memory.read p m a

/-- Put a cell where its address belongs, or none where the byte is the one an unlisted address reads as. -/
def Memory.cons (p : Params) (a : Nat) (b : Byte) (m : Memory) : Memory := if b = initByte p a then m else (a, b) :: m

/-- `MEM[a] <- b` (R43), keeping the canonical form. -/
def Memory.write (p : Params) : Memory → Nat → Byte → Memory
  | [], a, b => Memory.cons p a b []
  | (k, c) :: m, a, b =>
    if a < k then Memory.cons p a b ((k, c) :: m)
    else if a = k then Memory.cons p a b m
    else (k, c) :: Memory.write p m a b

/-- Whether every address of the list lies above `a`. -/
def Memory.above (a : Nat) : Memory → Bool
  | [] => true
  | (k, _) :: _ => decide (a < k)

/-- The canonical form: addresses strictly rising and inside the 4096 bytes (R40), no cell equal to what an unlisted address reads as. -/
def Memory.wf (p : Params) : Memory → Bool
  | [] => true
  | (k, b) :: m => decide (k < Config.memSize) && decide (b ≠ initByte p k) && Memory.above k m && Memory.wf p m

/-- Bytes written at ascending addresses from `a` (R45). -/
def Memory.writeBytes (p : Params) : Memory → Nat → List Byte → Memory
  | m, _, [] => m
  | m, a, b :: bs => Memory.writeBytes p (Memory.write p m a b) (a + 1) bs

/-- `MEM[a]` in a state (R43, R47). -/
def State.byteAt (s : State) (a : Nat) : Byte := Memory.read s.params s.mem a

/-- Bytes stored at ascending addresses from `a` (R43, R45). -/
def State.store (s : State) (a : Nat) (bs : List Byte) : State := s.setMem (Memory.writeBytes s.params s.mem a bs)

/-- The fault of an access at `a`: `MemoryFault` with the address as 17 bits (R43, R141). -/
def memoryFaultAt (kind : AccessKind) (a : Nat) : Fault := .memoryFault kind (BitVec.ofNat 17 a)

/-- `MemRead(addr, 1)` (R43): the address is not reduced; above 0xFFF it is a `MemoryFault`. -/
def State.memRead (s : State) (kind : AccessKind) (a : Nat) : Except Fault Byte :=
  if a > 0xFFF then .error (memoryFaultAt kind a) else .ok (s.byteAt a)

/-- The check a multi-byte instruction makes of its whole range before any effect: the fault records the lowest
out-of-range address, `max(I, 0x1000)` (R114, R129 to R131, R141 c to f). No byte, no fault. -/
def rangeFault (kind : AccessKind) (base count : Nat) : Option Fault :=
  if 0 < count ∧ base + count - 1 > 0xFFF then some (memoryFaultAt kind (max base 0x1000)) else none

/-! ### The call stack (R14) -/

/-- `STACK[k]`; an entry that nothing has pushed reads as `Config.stackInit` (log entry 9). -/
def stackRead (stack : List Word) (k : Nat) : Word := stack.getD k Config.stackInit

/-- `STACK[k] <- w`, the other entries kept. -/
def stackWrite : List Word → Nat → Word → List Word
  | [], 0, w => [w]
  | [], k + 1, w => Config.stackInit :: stackWrite [] k w
  | _ :: es, 0, w => w :: es
  | e :: es, k + 1, w => e :: stackWrite es k w

/-- `STACK[k]` in a state (R14). -/
def State.entry (s : State) (k : Nat) : Word := stackRead s.stack k

/-- `Push(v)` (R14): `StackOverflow` when `SP == STACK_DEPTH`; never in the unbounded design. -/
def State.push (s : State) (w : Word) : Except Fault State :=
  if s.params.stackDepth = some s.sp then .error .stackOverflow
  else .ok { s with stack := stackWrite s.stack s.sp w, sp := s.sp + 1 }

/-- `Pop()` (R14): `StackUnderflow` on an empty stack; the entry is not erased (R81). -/
def State.pop (s : State) : Except Fault (Word × State) :=
  if s.sp = 0 then .error .stackUnderflow
  else .ok (s.entry (s.sp - 1), { s with sp := s.sp - 1 })

/-! ### The timer phase (R151) -/

/-- `CYC <- (CYC + 1) mod 3` (R151). -/
def nextCyc (c : Fin Config.timerDiv) : Fin Config.timerDiv := ⟨(c.val + 1) % Config.timerDiv, Nat.mod_lt _ (by decide)⟩

/-- A timer decremented by 1, floored at 0 (R15, R151). -/
def floorDec (b : Byte) : Byte := if b = 0 then 0 else b - 1

/-- A timer after the timer phase whose counter was `c` before it: decremented when the new counter is 0 (R151). -/
def tickTimer (c : Fin Config.timerDiv) (b : Byte) : Byte := if (nextCyc c).val = 0 then floorDec b else b

/-- The timer phase of a step (R21 T, R151). It reads the counter and the timers and nothing else, and no other operation
counts a timer down: the timers count steps, not time (R153). -/
def State.tick (s : State) : State :=
  { s with cyc := nextCyc s.cyc, dt := tickTimer s.cyc s.dt, st := tickTimer s.cyc s.st }

/-! ### The free inputs of a step (R20(d), (e); log entry 12) -/

/-- The inputs of the `k`-th step when nothing settles them: free values. -/
def freeInputs (k : Nat) : StepInputs := ⟨Config.randomByte k, Config.keyPressed k, Config.keyWait k⟩

/-- The inputs the coming step sees. -/
def State.inputs (s : State) : StepInputs := s.env.headD (freeInputs s.envCount)

/-! ### The execute phase's view (R13, R21) -/

/-- The state the execute phase works on: the timer phase done, once (R153), `PC` advanced by 2, this step's inputs drawn,
and no later load accepted (R13, R21, R182). -/
def State.advance (s : State) : State :=
  { s.tick with pc := s.pc + 2, loadOpen := false, env := s.env.tail, envCount := s.envCount + 1 }

/-! ### Faults (R140 to R145) -/

/-- TAKING A FAULT: nothing the step did is committed, and `FAULT` records the cause (R144). Applied to the state BEFORE
the step. There is no vector, no saved state and no return but reset (R144, R145). -/
def State.takeFault (s : State) (f : Fault) : State := { s with fault := some f }

/-- Whether the engine is halted (R17). -/
def State.halted (s : State) : Bool := s.fault.isSome

/-- The code `FAULT` holds (R17, R140). -/
def faultCode : Option Fault → Nat
  | none => 0
  | some .stackUnderflow => 1
  | some .stackOverflow => 2
  | some (.memoryFault _ _) => 3
  | some .programTooLarge => 4

/-- The end of a step (R21): the fault taken from the state before the step, or the new state committed. -/
def State.commit (s : State) (raised : Option Fault) (t : State) : Result :=
  match raised with
  | some f => .next (s.takeFault f)
  | none => .next t

/-! ### Fetch (R21 F, R44) -/

/-- The instruction word at `PC`: two reads, the low address first, big-endian; no alignment (R44, R46, R148). -/
def State.fetchWord (s : State) : Except Fault Word :=
  match s.memRead .fetch s.pc.toNat with
  | .error f => .error f
  | .ok hi =>
    match s.memRead .fetch (s.pc.toNat + 1) with
    | .error f => .error f
    | .ok lo => .ok (wordOfBytes hi lo)

/-- The address the host's word is placed at: `PC`, or the entry point where no word can be fetched at `PC`. -/
def State.fetchSlot (s : State) : Word := if s.pc.toNat ≤ 0xFFE then s.pc else BitVec.ofNat 16 Config.progBase

/-- The state with a word where the next fetch reads it, and running: what a loaded program amounts to (log entry 21). -/
def State.placeWord (s : State) (w : Word) : State :=
  { s with
    pc := s.fetchSlot
    fault := none
    mem := Memory.writeBytes s.params s.mem s.fetchSlot.toNat [highByte w, lowByte w] }

end Sys2Proof.Machine
end

