-- ==== Sys2Proof/Machine/Operands.lean ====
section
/-! DEFINITION. Every operand form of 30_encoding.md R63 and the index-register data path of 44_arith_shift.md R109. -/

namespace Sys2Proof.Machine

/-- An address immediate zero-extended to 16 bits: `zext_16(nnn)` (R63). -/
def zextAddr (nnn : Addr) : Word := nnn.setWidth 16

/-- A register or key index zero-extended to 16 bits: `zext_16(V[0])` (R85). -/
def zextByte (b : Byte) : Word := b.setWidth 16

/-- The base of every data access: `I` as an unbounded integer (R12, R53). -/
def State.base (s : State) : Nat := s.i.toNat

/-- The target of `JP V0+addr`, not masked (R85). -/
def State.jumpOffset (s : State) (nnn : Addr) : Word := zextAddr nnn + zextByte (s.getV 0)

/-- The font address of the value of a register: `0x50 + 5 * V[x]`, on all 8 bits (R128). -/
def glyphAddr (b : Byte) : Word := BitVec.ofNat 16 (Config.fontBase + Config.glyphBytes * b.toNat)

/-- The three decimal digits, hundreds first, one per byte (R129). -/
def bcdDigits (b : Byte) : List Byte :=
  [BitVec.ofNat 8 (b.toNat / 100), BitVec.ofNat 8 (b.toNat / 10 % 10), BitVec.ofNat 8 (b.toNat % 10)]

/-- `V[0]`..`V[count-1]`, ascending (R130). -/
def State.firstRegs (s : State) (count : Nat) : List Byte := (List.range count).map fun r => s.getV (BitVec.ofNat 4 r)

/-- `V[r] <- MEM[base + r]` for `r = 0 .. count-1`, ascending (R131). -/
def State.loadRegs (s : State) (base : Nat) : Nat → State
  | 0 => s
  | count + 1 => (s.loadRegs base count).setV (BitVec.ofNat 4 count) (s.byteAt (base + count))

end Sys2Proof.Machine
end

