-- ==== Sys2Proof/Machine/Flags.lean ====
section
/-! DEFINITION. The flag computations and the alu_8bit (44_arith_shift.md R100 to R109). `VF` is the only flag (R11). -/

namespace Sys2Proof.Machine

/-- A flag as the byte `VF` receives: 1 or 0 (R11). -/
def flagByte (f : Bool) : Byte := if f then 1 else 0

/-- Carry of an addition: the true sum exceeds 255 (R102). -/
def carryFlag (a b : Byte) : Bool := decide (a.toNat + b.toNat > 255)

/-- The flag of a subtraction: strictly greater, so 0 for equal operands (R100, R104, R105). -/
def greaterFlag (a b : Byte) : Bool := decide (a.toNat > b.toNat)

/-- The bit a right shift moves out: bit 0 (R106). -/
def shrFlag (a : Byte) : Bool := a.getLsbD 0

/-- The bit a left shift moves out: bit 7 (R107). -/
def shlFlag (a : Byte) : Bool := a.getLsbD 7

/-- The range flag of `ADD I,Vx` on the unwrapped 17-bit sum, for either value of `ADDI_STRICT` (R103). -/
def rangeFlag (strict : Bool) (sum : Nat) : Bool := if strict then decide (sum > 0x1000) else decide (sum ≥ 0x1000)

/-- The operations of the alu_8bit (R109). -/
inductive AluOp where
  | pass | or | and | xor | addnf | add | sub | subn | shr | shl
  deriving DecidableEq, Repr

/-- `alu(op, a, b) -> (r, f)` (R109): the result, and the flag for the operations that write `VF`. -/
def alu (op : AluOp) (a b : Byte) : Byte × Option Bool :=
  match op with
  | .pass => (b, none)
  | .or => (a ||| b, none)
  | .and => (a &&& b, none)
  | .xor => (a ^^^ b, none)
  | .addnf => (a + b, none)
  | .add => (a + b, some (carryFlag a b))
  | .sub => (a - b, some (greaterFlag a b))
  | .subn => (b - a, some (greaterFlag b a))
  | .shr => (a >>> 1, some (shrFlag a))
  | .shl => (a <<< 1, some (shlFlag a))

/-- `VF <- f`, 1 or 0 (R11). -/
def State.setFlag (s : State) (f : Bool) : State := s.setV regVF (flagByte f)

/-- A result and its flag written back: the result first, the flag last, so that `x = 15` ends as the flag (R108). -/
def State.writeResult (s : State) (x : Reg) (rf : Byte × Option Bool) : State :=
  match rf.2 with
  | some f => (s.setV x rf.1).setFlag f
  | none => s.setV x rf.1

/-- `V[x] <- r, VF <- f` for `(r, f) = alu(op, V[x], b)`: the engine's routing of the ALU (R109), operands read first (R108). -/
def State.aluInto (s : State) (op : AluOp) (x : Reg) (b : Byte) : State := s.writeResult x (alu op (s.getV x) b)

/-- `I <- (I + V[x]) mod 65536`, then `VF` the range flag of the unwrapped sum (R103, R108). -/
def State.addToIndex (s : State) (strict : Bool) (x : Reg) : State :=
  let sum := s.i.toNat + (s.getV x).toNat
  (s.setI (BitVec.ofNat 16 sum)).setFlag (rangeFlag strict sum)

end Sys2Proof.Machine
end

