-- ==== Sys2Proof/Machine/Devices.lean ====
section
/-! DEFINITION. The devices a step calls, as the spec's reference models give them: the Display (60_exceptions.md R155 to
R158) and the Keypad (R159, R160), and the sprite loop of `DRW` over the Display (45_random_draw.md R114). -/

namespace Sys2Proof.Machine

/-- `Display.pixelActive(x, y)` (R157). The index types are R155's guarantee that every call is inside the grid. -/
def pixelActive (f : Framebuffer) (x : Fin 64) (y : Fin 32) : Bool := (f[y.val]'y.isLt)[x.val]'x.isLt

/-- `Display.togglePixel(x, y)` (R158): that pixel flips, no other changes. -/
def togglePixel (f : Framebuffer) (x : Fin 64) (y : Fin 32) : Framebuffer :=
  f.set y.val ((f[y.val]'y.isLt).set x.val (!pixelActive f x y) x.isLt) y.isLt

/-- `Display.clear()` (R156): every pixel off. -/
def clearedScreen : Framebuffer := Vector.replicate 32 (Vector.replicate 64 false)

/-- `Keypad.keyPressed(k)` of the reference Keypad (R159): the step's answer, and false for `k ≥ NKEYS` (log entry 13). -/
def keyAnswer (p : Params) (inp : StepInputs) (k : Byte) : Bool := decide (k.toNat < p.nkeys) && inp.keyPressed

/-- `Keypad.waitForKeyPress()` (R160): none, or a key index in 0..`NKEYS`-1; an answer that is no key's is none. -/
def keyIndexAnswer (p : Params) (inp : StepInputs) : Option Byte := inp.keyWait.filter fun k => decide (k.toNat < p.nkeys)

/-- What `DRW` has done so far: the framebuffer, and whether a toggled pixel was on (R114). -/
structure Drawing where
  fb : Framebuffer
  collision : Bool
  deriving DecidableEq, Repr

/-- One pixel of a sprite row: column `x0 + c` of row `y`, bit `7 - c` of the row byte. Past column 63 it is dropped; a
0 bit does nothing; for a 1 bit `pixelActive` is asked first, then `togglePixel` is called (R114). -/
def drawPixel (x0 : Nat) (y : Fin 32) (b : Byte) (d : Drawing) (c : Nat) : Drawing :=
  if h : x0 + c < 64 then
    if b.getLsbD (7 - c) then
      { fb := togglePixel d.fb ⟨x0 + c, h⟩ y, collision := d.collision || pixelActive d.fb ⟨x0 + c, h⟩ y }
    else d
  else d

/-- One row of a sprite: eight pixels, left to right (R114). -/
def drawRow (x0 : Nat) (y : Fin 32) (b : Byte) (d : Drawing) : Drawing := (List.range 8).foldl (drawPixel x0 y b) d

/-- One row of the sprite whose row bytes `byte` gives: byte `r` at screen row `y0 + r`; below row 31 nothing is drawn (R114). -/
def drawSpriteRow (byte : Nat → Byte) (x0 y0 : Nat) (d : Drawing) (r : Nat) : Drawing :=
  if h : y0 + r < 32 then drawRow x0 ⟨y0 + r, h⟩ (byte r) d else d

/-- The sprite of `rows` rows, top to bottom (R114). -/
def drawSprite (byte : Nat → Byte) (x0 y0 rows : Nat) (f : Framebuffer) : Drawing :=
  (List.range rows).foldl (drawSpriteRow byte x0 y0) ⟨f, false⟩

/-- How many rows are drawn: rows below the bottom edge are never started (R114). -/
def visibleRows (n : Nibble) (y0 : Nat) : Nat := min n.toNat (32 - y0)

end Sys2Proof.Machine
end

