-- ==== Sys2Proof/Machine/ArithShift.lean ====
section
/-! DEFINITION. Additive, subtractive and shift instructions (44_arith_shift.md), over the alu_8bit of Flags.lean. -/

namespace Sys2Proof.Machine

/-- `ADD Vx,byte` (R101): wraps, no flag. -/
def execAddVxByte (x : Reg) (kk : Byte) (s : State) : Result := .next (s.advance.aluInto .addnf x kk)

/-- `ADD Vx,Vy` (R102): `VF` = carry. -/
def execAddVxVy (x y : Reg) (s : State) : Result := .next (s.advance.aluInto .add x (s.advance.getV y))

/-- `SUB Vx,Vy` (R104): `VF` = 1 iff `V[x] > V[y]`. -/
def execSubVxVy (x y : Reg) (s : State) : Result := .next (s.advance.aluInto .sub x (s.advance.getV y))

/-- `SUBN Vx,Vy` (R105): `V[y] - V[x]` into `V[x]`, `VF` = 1 iff `V[y] > V[x]`. -/
def execSubnVxVy (x y : Reg) (s : State) : Result := .next (s.advance.aluInto .subn x (s.advance.getV y))

/-- `SHR Vx` (R106): shift right by one, `VF` = old bit 0; the field `y` is ignored, `V[y]` goes unused by `shr`. -/
def execShrVx (x : Reg) (s : State) : Result := .next (s.advance.aluInto .shr x 0)

/-- `SHL Vx` (R107): shift left by one, `VF` = old bit 7; the field `y` is ignored. -/
def execShlVx (x : Reg) (s : State) : Result := .next (s.advance.aluInto .shl x 0)

/-- `ADD I,Vx` (R103): 16-bit sum into `I`, `VF` = the range flag; `ADDI_STRICT` is the parameter (log entry 7). -/
def execAddIVx (x : Reg) (s : State) : Result := .next (s.advance.addToIndex s.params.addiStrict x)

end Sys2Proof.Machine
end

