-- ==== Sys2Proof/Machine/IndexMemory.lean ====
section
/-! DEFINITION. Font pointer, BCD and block transfers (47_index_memory.md). `I` is never changed by an access. -/

namespace Sys2Proof.Machine

/-- `LD F,Vx` (R128): `I <- 0x50 + 5 * V[x]`. -/
def execLdFVx (x : Reg) (s : State) : Result := .next (s.advance.setI (glyphAddr (s.advance.getV x)))

/-- `LD B,Vx` (R129): the digits at `I`, `I+1`, `I+2`; checked before any write. -/
def execLdBVx (x : Reg) (s : State) : Result :=
  let a := s.advance
  s.commit (rangeFault .write a.base 3) (a.store a.base (bcdDigits (a.getV x)))

/-- `LD [I],Vx` (R130): `V[0]`..`V[x]` to `MEM[I..I+x]`; checked before any write. -/
def execLdMemVx (x : Reg) (s : State) : Result :=
  let a := s.advance
  s.commit (rangeFault .write a.base (x.toNat + 1))
    (a.store a.base (a.firstRegs (x.toNat + 1)))

/-- `LD Vx,[I]` (R131): `V[0]`..`V[x]` from `MEM[I..I+x]`; checked before any register write. -/
def execLdVxMem (x : Reg) (s : State) : Result :=
  let a := s.advance
  s.commit (rangeFault .read a.base (x.toNat + 1)) (a.loadRegs a.base (x.toNat + 1))

end Sys2Proof.Machine
end

