-- ==== Sys2Proof/Machine/JumpCall.lean ====
section
/-! DEFINITION. `JP addr`, `JP V0+addr`, `CALL addr` (41_jump_call.md). -/

namespace Sys2Proof.Machine

/-- `JP addr` (R84): `PC <- zext_16(nnn)`; no alignment, no range check. -/
def execJpAddr (nnn : Addr) (s : State) : Result := .next (s.advance.setPc (zextAddr nnn))

/-- `JP V0+addr` (R85): `PC <- zext_16(nnn) + zext_16(V[0])`, no masking. -/
def execJpV0Addr (nnn : Addr) (s : State) : Result := .next (s.advance.setPc (s.advance.jumpOffset nnn))

/-- `CALL addr` (R86): push the advanced `PC`, then jump; `StackOverflow` at full depth (R143). -/
def execCallAddr (nnn : Addr) (s : State) : Result :=
  match s.advance.push s.advance.pc with
  | .error f => .next (s.takeFault f)
  | .ok t => .next (t.setPc (zextAddr nnn))

end Sys2Proof.Machine
end

