-- ==== Sys2Proof/Machine/Skip.lean ====
section
/-! DEFINITION. The conditional skips `SE` and `SNE` (42_skip.md), and the one shared skip operation. -/

namespace Sys2Proof.Machine

/-- `if cond: PC <- PC + 2`, on the advanced `PC` (42_skip.md, R13). -/
def State.skipIf (s : State) (cond : Bool) : State := if cond then s.setPc (s.pc + 2) else s

/-- `SE Vx,byte` (R88): skip when `V[x] == kk`. -/
def execSeVxByte (x : Reg) (kk : Byte) (s : State) : Result := .next (s.advance.skipIf (s.advance.getV x == kk))

/-- `SNE Vx,byte` (R89): skip when `V[x] != kk`. -/
def execSneVxByte (x : Reg) (kk : Byte) (s : State) : Result := .next (s.advance.skipIf (s.advance.getV x != kk))

/-- `SE Vx,Vy` (R90): skip when `V[x] == V[y]`. -/
def execSeVxVy (x y : Reg) (s : State) : Result :=
  .next (s.advance.skipIf (s.advance.getV x == s.advance.getV y))

/-- `SNE Vx,Vy` (R91): skip when `V[x] != V[y]`. -/
def execSneVxVy (x y : Reg) (s : State) : Result :=
  .next (s.advance.skipIf (s.advance.getV x != s.advance.getV y))

end Sys2Proof.Machine
end

