-- ==== Sys2Proof/Machine/KeyTimer.lean ====
section
/-! DEFINITION. Key skips, timer loads and the key-wait (46_key_timer.md). -/

namespace Sys2Proof.Machine

/-- `SKP Vx` (R120): skip when key `V[x]`, all 8 bits, is pressed. -/
def execSkpVx (x : Reg) (s : State) : Result := .next (s.advance.skipIf (keyAnswer s.params s.inputs (s.advance.getV x)))

/-- `SKNP Vx` (R121): skip when it is not pressed. -/
def execSknpVx (x : Reg) (s : State) : Result := .next (s.advance.skipIf (!keyAnswer s.params s.inputs (s.advance.getV x)))

/-- `LD Vx,DT` (R122): `DT` as this step's timer phase left it. -/
def execLdVxDT (x : Reg) (s : State) : Result := .next (s.advance.setV x s.advance.dt)

/-- `LD DT,Vx` (R123): written after this step's timer phase. -/
def execLdDTVx (x : Reg) (s : State) : Result := .next (s.advance.setDT (s.advance.getV x))

/-- `LD ST,Vx` (R124): written after this step's timer phase. -/
def execLdSTVx (x : Reg) (s : State) : Result := .next (s.advance.setST (s.advance.getV x))

/-- What a key-wait does with the Keypad's answer, on the advanced state (R125): a key index, `zext_8(k)`, is stored; without one
`PC <- PC - 2`, so that the same instruction is fetched again. -/
def State.afterKeyWait (s : State) (x : Reg) (answer : Option Byte) : State :=
  match answer with
  | some k => s.setV x k
  | none => s.setPc (s.pc - 2)

/-- `LD Vx,K` (R125): a poll, never a stall inside a step. -/
def execLdVxK (x : Reg) (s : State) : Result := .next (s.advance.afterKeyWait x (keyIndexAnswer s.params s.inputs))

end Sys2Proof.Machine
end

