-- ==== Sys2Proof/Machine/LoadLogic.lean ====
section
/-! DEFINITION. Register load and bitwise instructions, and `LD I,addr` (43_load_logic.md). None writes a flag. -/

namespace Sys2Proof.Machine

/-- `LD Vx,byte` (R93): `V[x] <- kk`. -/
def execLdVxByte (x : Reg) (kk : Byte) (s : State) : Result := .next (s.advance.aluInto .pass x kk)

/-- `LD Vx,Vy` (R94): `V[x] <- V[y]`. -/
def execLdVxVy (x y : Reg) (s : State) : Result := .next (s.advance.aluInto .pass x (s.advance.getV y))

/-- `OR Vx,Vy` (R95): `V[x] <- V[x] | V[y]`. -/
def execOrVxVy (x y : Reg) (s : State) : Result := .next (s.advance.aluInto .or x (s.advance.getV y))

/-- `AND Vx,Vy` (R96): `V[x] <- V[x] & V[y]`. -/
def execAndVxVy (x y : Reg) (s : State) : Result := .next (s.advance.aluInto .and x (s.advance.getV y))

/-- `XOR Vx,Vy` (R97): `V[x] <- V[x] ^ V[y]`. -/
def execXorVxVy (x y : Reg) (s : State) : Result := .next (s.advance.aluInto .xor x (s.advance.getV y))

/-- `LD I,addr` (R98, supplied by the spec, D6: log entry 6): `I <- zext_16(nnn)`. -/
def execLdIAddr (nnn : Addr) (s : State) : Result := .next (s.advance.setI (zextAddr nnn))

end Sys2Proof.Machine
end

