-- ==== Sys2Proof/Machine/RandomDraw.lean ====
section
/-! DEFINITION. `RND` and `DRW` (45_random_draw.md). -/

namespace Sys2Proof.Machine

/-- `RND Vx,byte` (R113): the free byte of this step, ANDed with `kk` by the ALU (R109, R161; log entry 12). -/
def execRndVxByte (x : Reg) (kk : Byte) (s : State) : Result :=
  .next (s.advance.writeResult x (alu .and s.inputs.rnd kk))

/-- The sprite `DRW` draws in a state: row `r` is `MEM[I + r]`, rows `n` clipped at the bottom edge, at `(V[x] mod 64, V[y] mod 32)` (R114). -/
def State.sprite (s : State) (x y : Reg) (n : Nibble) : Drawing :=
  let y0 := (s.getV y).toNat % 32
  drawSprite (fun r => s.byteAt (s.base + r)) ((s.getV x).toNat % 64) y0 (visibleRows n y0) s.fb

/-- `DRW Vx,Vy,nibble` (R114): the range of the drawn rows is checked before any effect; `VF` = collision, written last
and always. -/
def execDrwVxVyNibble (x y : Reg) (n : Nibble) (s : State) : Result :=
  let a := s.advance
  let d := a.sprite x y n
  s.commit (rangeFault .read a.base (visibleRows n ((a.getV y).toNat % 32))) ((a.setFb d.fb).setFlag d.collision)

end Sys2Proof.Machine
end

