-- ==== Sys2Proof/Machine/ScreenFlow.lean ====
section
/-! DEFINITION. `CLS` and `RET` (40_screen_flow.md). In every family file a meaning takes the state BEFORE the step and
works on `s.advance`, the execute phase's view; a fault is taken from `s` (10_state.md R21; log entry 16). -/

namespace Sys2Proof.Machine

/-- `CLS` (R80): `Display.clear()`. -/
def execCls (s : State) : Result := .next (s.advance.setFb clearedScreen)

/-- `RET` (R81): `PC <- Pop()`; `StackUnderflow` on an empty stack (R142). -/
def execRet (s : State) : Result :=
  match s.advance.pop with
  | .error f => .next (s.takeFault f)
  | .ok (target, t) => .next (t.setPc target)

end Sys2Proof.Machine
end

