-- ==== Sys2Proof/Machine/Unknown.lean ====
section
/-! DEFINITION. The `<unknown>` no-operation (48_unknown.md). -/

namespace Sys2Proof.Machine

/-- `<unknown>` (R134): nothing but what every step does. -/
def execUnknown (s : State) : Result := .next s.advance

end Sys2Proof.Machine
end

