-- ==== Sys2Proof/Machine/HostInterface.lean ====
section
/-! DEFINITION. What the host does between steps: reset, the one program load, and the snapshot it reads (70_reset_and_hazards.md
R180 to R187, 60_exceptions.md R146, R162). -/

namespace Sys2Proof.Machine

/-- The reset input `rst` (R180): the engine as after `State.resetWith` its parameters, whatever it was; the Display's
framebuffer is not reset (R181), nor are the model's own fields (log entry 22). -/
def State.rst (s : State) : State := { State.resetWith s.params with fb := s.fb, env := s.env, envCount := s.envCount }

/-- Whether a load is accepted: between reset and the first step, once, and not on a halted engine (R182; log entry 15). -/
def State.loadAccepted (s : State) : Bool := s.loadOpen && !s.halted

/-- `loadProgram(bytes)`: copied verbatim to 0x200 upward (R183); over 3584 bytes nothing is copied and the engine is
halted with `ProgramTooLarge` (R146, R184); ignored when no load is accepted (R182). -/
def State.loadProgram (s : State) (bytes : List Byte) : State :=
  if s.loadAccepted then
    if bytes.length ≤ Config.progMax then
      { s.store Config.progBase bytes with loadOpen := false }
    else { s.takeFault .programTooLarge with loadOpen := false }
  else s

/-- What the host may read after a step: `DT`, `ST`, `V`, `I`, `PC`, `FAULT` and the 4096 bytes; not the stack, `SP` or
`CYC` (R162). -/
structure Snapshot where
  dt : Byte
  st : Byte
  v : List Byte
  i : Word
  pc : Word
  fault : Option Fault
  mem : List Byte
  deriving DecidableEq, Repr

/-- The snapshot of a state (R162). -/
def State.snapshot (s : State) : Snapshot :=
  { dt := s.dt, st := s.st, v := s.v.toList, i := s.i, pc := s.pc, fault := s.fault,
    mem := (List.range Config.memSize).map s.byteAt }

end Sys2Proof.Machine
end

