-- ==== Sys2Proof/Machine/Step.lean ====
section
/-! DEFINITION. The one operation of the engine (10_state.md R21), and the word the host places where it fetches. -/

namespace Sys2Proof.Machine

/-- One step (R21): a halted engine does nothing (R145); a word that cannot be fetched is a fault (R43, R148); otherwise
the fetched word is decoded and executed. -/
def step (s : State) : Host.Outcome State Fault Refusal :=
  match s.fault with
  | some _ => .next s
  | none =>
    match s.fetchWord with
    | .error f => .next (s.takeFault f)
    | .ok w => exec (decode w) s

/-- The state whose next step runs the table word `w`: placed at `PC` (at 0x200 if nothing can be fetched at `PC`), the
engine running. It stands for the program load of R183 (log entry 21). -/
def State.withFetchWord (s : State) (nbits w : Nat) : State := s.placeWord (tableWord nbits w)

end Sys2Proof.Machine
end

