-- ==== Sys2Proof/Safety.lean ====
section
/-! DEFINITION. The terms claims are stated in: what a step leaves alone (its frame), the invariants of the machine, which
instruction writes what (10_state.md R10 to R15, R22; 20_memory.md R40), which raises what (60_exceptions.md R140, R141),
and when a program has finished (70_reset_and_hazards.md R188). -/

namespace Sys2Proof.Machine

/-! ### What a step leaves alone, between the state `s` before it and the state `t` after it -/

/-- Every general register outside `ds` is unchanged. -/
def SameRegsExcept (ds : List Reg) (s t : State) : Prop := ∀ r : Reg, r ∉ ds → t.getV r = s.getV r

/-- `I` is unchanged. -/
def SameIndex (s t : State) : Prop := t.i = s.i

/-- `SP` and every stack entry are unchanged. -/
def SameStack (s t : State) : Prop := t.sp = s.sp ∧ t.stack = s.stack

/-- Every byte of memory reads as before. -/
def SameMemory (s t : State) : Prop := ∀ a : Nat, t.byteAt a = s.byteAt a

/-- Every byte of memory outside the `count` bytes at `base` reads as before. -/
def SameMemoryOutside (base count : Nat) (s t : State) : Prop :=
  ∀ a : Nat, a < base ∨ base + count ≤ a → t.byteAt a = s.byteAt a

/-- Every pixel is as before. -/
def SameScreen (s t : State) : Prop := ∀ (px : Fin 64) (py : Fin 32), pixelActive t.fb px py = pixelActive s.fb px py

/-- `FAULT` is unchanged. -/
def SameFault (s t : State) : Prop := t.fault = s.fault

/-- The timers and the cycle counter are as the timer phase of this step leaves them, and no more (R151). -/
def TimersTicked (s t : State) : Prop :=
  t.cyc = nextCyc s.cyc ∧ t.dt = tickTimer s.cyc s.dt ∧ t.st = tickTimer s.cyc s.st

/-- What an instruction that writes at most the registers `ds` and `PC` does with everything else. -/
structure RegisterFrame (ds : List Reg) (s t : State) : Prop where
  regs : SameRegsExcept ds s t
  index : SameIndex s t
  stack : SameStack s t
  memory : SameMemory s t
  screen : SameScreen s t
  timers : TimersTicked s t
  fault : SameFault s t

/-- `VF` is 1 or 0 as `p` holds or not (R11). -/
def FlagIs (t : State) (p : Prop) : Prop := (p → t.getV regVF = 1) ∧ (¬p → t.getV regVF = 0)

/-! ### Invariants -/

/-- Memory is in its canonical form. -/
def State.MemoryCanonical (s : State) : Prop := Memory.wf s.params s.mem = true

/-- `PC` and every live stack entry are values the rules can produce: `PC` at most 0x10FE (R13, R22), a pushed address at
most 0x1000 (R81: a `CALL` fetched at 0xFFE pushes 0x1000). -/
def State.PcBounded (s : State) : Prop :=
  s.pc.toNat ≤ 0x10FE ∧
  ∀ k : Nat, k < s.sp → (s.entry k).toNat ≤ 0x1000

/-- `SP` counts at most `STACK_DEPTH` entries, and no entry beyond the array was written: 0 ≤ `SP` ≤ `STACK_DEPTH` (R14). In
the unbounded design there is nothing to keep. -/
def State.StackBounded (s : State) : Prop := ∀ d : Nat, s.params.stackDepth = some d → s.sp ≤ d ∧ s.stack.length ≤ d

/-! ### Who writes what -/

/-- The general registers an instruction may write: its destinations (R10) and `VF` for the seven instructions that write
it as a side effect (R11). -/
def destinations : Instr → List Reg
  | .cls | .ret => []
  | .jpAddr _ | .callAddr _ | .ldIAddr _ | .jpV0Addr _ => []
  | .seVxByte _ _ | .sneVxByte _ _ | .seVxVy _ _ | .sneVxVy _ _ => []
  | .ldVxByte x _ | .addVxByte x _ | .rndVxByte x _ => [x]
  | .ldVxVy x _ | .orVxVy x _ | .andVxVy x _ | .xorVxVy x _ => [x]
  | .addVxVy x _ | .subVxVy x _ | .subnVxVy x _ | .shrVx x _ | .shlVx x _ => [x, regVF]
  | .drwVxVyNibble _ _ _ => [regVF]
  | .addIVx _ => [regVF]
  | .skpVx _ | .sknpVx _ | .ldDTVx _ | .ldSTVx _ => []
  | .ldVxDT x | .ldVxK x => [x]
  | .ldFVx _ | .ldBVx _ | .ldMemVx _ => []
  | .ldVxMem x => (List.range (x.toNat + 1)).map fun r => BitVec.ofNat 4 r
  | .unknown _ => []

/-- How many bytes an instruction stores, from `I` upward (R40: `LD B,Vx` and `LD [I],Vx` store, nothing else). -/
def storedBytes : Instr → Nat
  | .ldBVx _ => 3
  | .ldMemVx x => x.toNat + 1
  | .cls | .ret | .jpAddr _ | .callAddr _ | .seVxByte _ _ | .sneVxByte _ _ | .seVxVy _ _ => 0
  | .ldVxByte _ _ | .addVxByte _ _ | .ldVxVy _ _ | .orVxVy _ _ | .andVxVy _ _ | .xorVxVy _ _ => 0
  | .addVxVy _ _ | .subVxVy _ _ | .shrVx _ _ | .subnVxVy _ _ | .shlVx _ _ | .sneVxVy _ _ => 0
  | .ldIAddr _ | .jpV0Addr _ | .rndVxByte _ _ | .drwVxVyNibble _ _ _ | .skpVx _ | .sknpVx _ => 0
  | .ldVxDT _ | .ldVxK _ | .ldDTVx _ | .ldSTVx _ | .addIVx _ | .ldFVx _ | .ldVxMem _ | .unknown _ => 0

/-- How many rows `DRW` reads: rows below the bottom edge are not started (R114). -/
def rowsRead (s : State) (y : Reg) (n : Nibble) : Nat := min n.toNat (32 - (s.getV y).toNat % 32)

/-- The fault an instruction raises in the state before the step, if any (R140, R141). Only `RET`, `CALL` and the four
memory instructions have one. -/
def faultOf (i : Instr) (s : State) : Option Fault :=
  let at' := fun (kind : AccessKind) (count : Nat) =>
    if 0 < count ∧ s.i.toNat + count > 0x1000 then
      some (Fault.memoryFault kind (BitVec.ofNat 17 (max s.i.toNat 0x1000)))
    else none
  match i with
  | .ret => if s.sp = 0 then some .stackUnderflow else none
  | .callAddr _ => if s.params.stackDepth = some s.sp then some .stackOverflow else none
  | .drwVxVyNibble _ y n => at' .read (rowsRead s y n)
  | .ldBVx _ => at' .write 3
  | .ldMemVx x => at' .write (x.toNat + 1)
  | .ldVxMem x => at' .read (x.toNat + 1)
  | .cls | .jpAddr _ | .seVxByte _ _ | .sneVxByte _ _ | .seVxVy _ _ => none
  | .ldVxByte _ _ | .addVxByte _ _ | .ldVxVy _ _ | .orVxVy _ _ | .andVxVy _ _ | .xorVxVy _ _ => none
  | .addVxVy _ _ | .subVxVy _ _ | .shrVx _ _ | .subnVxVy _ _ | .shlVx _ _ | .sneVxVy _ _ => none
  | .ldIAddr _ | .jpV0Addr _ | .rndVxByte _ _ | .skpVx _ | .sknpVx _ => none
  | .ldVxDT _ | .ldVxK _ | .ldDTVx _ | .ldSTVx _ | .addIVx _ | .ldFVx _ | .unknown _ => none

/-- `PC` after a step that fetched `i` at `s.pc` and raised no fault, row by row of the table of R22. -/
def pcAfter (i : Instr) (s : State) : Word :=
  let skip := fun (cond : Bool) => if cond then s.pc + 4 else s.pc + 2
  match i with
  | .jpAddr nnn => nnn.setWidth 16
  | .jpV0Addr nnn => nnn.setWidth 16 + (s.getV 0).setWidth 16
  | .callAddr nnn => nnn.setWidth 16
  | .ret => s.entry (s.sp - 1)
  | .seVxByte x kk => skip (s.getV x == kk)
  | .sneVxByte x kk => skip (s.getV x != kk)
  | .seVxVy x y => skip (s.getV x == s.getV y)
  | .sneVxVy x y => skip (s.getV x != s.getV y)
  | .skpVx x => skip (keyAnswer s.params s.inputs (s.getV x))
  | .sknpVx x => skip (!keyAnswer s.params s.inputs (s.getV x))
  | .ldVxK _ => if (keyIndexAnswer s.params s.inputs).isSome then s.pc + 2 else s.pc
  | .cls | .ldVxByte _ _ | .addVxByte _ _ | .ldVxVy _ _ | .orVxVy _ _ | .andVxVy _ _ | .xorVxVy _ _ => s.pc + 2
  | .addVxVy _ _ | .subVxVy _ _ | .shrVx _ _ | .subnVxVy _ _ | .shlVx _ _ => s.pc + 2
  | .ldIAddr _ | .rndVxByte _ _ | .drwVxVyNibble _ _ _ => s.pc + 2
  | .ldVxDT _ | .ldDTVx _ | .ldSTVx _ | .addIVx _ | .ldFVx _ | .ldBVx _ | .ldMemVx _ | .ldVxMem _ => s.pc + 2
  | .unknown _ => s.pc + 2

/-! ### The timers over many steps -/

/-- How many of `n` steps decrement the timers, where the counter is `c` before the first (R152). The number of steps alone
says it, no time does (R153). -/
def decrementsIn (c : Fin Config.timerDiv) (n : Nat) : Nat := (c.val + n) / Config.timerDiv

/-! ### The sprite of `DRW`, pixel by pixel -/

/-- Whether `DRW Vx,Vy,n` toggles the pixel at column `px`, row `py`: the pixel lies in the visible part of the sprite
and its bit is 1, bit 7 of the row byte leftmost (R114). -/
def spriteBit (s : State) (x y : Reg) (n : Nibble) (px : Fin 64) (py : Fin 32) : Bool :=
  let x0 := (s.getV x).toNat % 64
  let y0 := (s.getV y).toNat % 32
  decide (x0 ≤ px.val ∧ px.val < x0 + 8 ∧ y0 ≤ py.val ∧ py.val < y0 + n.toNat) &&
    (s.byteAt (s.i.toNat + (py.val - y0))).getLsbD (7 - (px.val - x0))

/-! ### Inputs of later steps, and finished programs -/

/-- The inputs the `k`-th step from `s` sees, if every step before it commits (log entry 12). -/
def State.inputsAt (s : State) (k : Nat) : StepInputs := (s.env[k]?).getD (freeInputs (s.envCount + k))

/-- The convention for a finished program: `PC` stands at a `JP` to itself and the engine runs (R188). -/
def State.Finished (s : State) : Prop :=
  s.fault = none ∧ s.pc.toNat ≤ 0xFFE ∧ s.fetchWord = .ok (encode (.jpAddr (s.pc.setWidth 12)))

end Sys2Proof.Machine
end

