-- ==== Sys2Proof/Certificates/Slice0/Obligations.lean ====
section
/-! DEFINITION. The statements for the provers. Every statement about an instruction gives its decoding, that `exec`
ANSWERS A NEXT STATE, what that state holds, and what it leaves alone (the frame, in the terms of Safety.lean). The
opcode numbers in the decoding clauses are those of the spec's map R65 (the spec's decision D5: log entry 5); the place and
the cadence of the timer phase in the frames are the spec's C1, D18 and D19 (log entry 10). Every statement holds for every
value of the parameters of R5, which stand in `State.params` (log entry 28). -/

open Sys2Proof Sys2Proof.Machine

/-! ### Decoding and encoding -/

/-- R64, R65, R67: decoding the encoding of a well-formed instruction gives it back, with every operand at every value. -/
def Obligations.DecodeEncodeRoundTrip : Prop := ∀ i : Instr, i.wf = true → decode (encode i) = i

/-- R64, R65: every word decodes to a well-formed instruction whose encoding is that very word, so that no two words share
an instruction and no bit is dropped. What is well formed rests on the map R65 (log entry 5); that no two words share an
instruction is the model's syntax, which keeps the field `y` of the shifts and the word of `<unknown>` (log entry 23). -/
def Obligations.EveryWordDecodesUniquely : Prop :=
  ∀ w : Word, (decode w).wf = true ∧ encode (decode w) = w

/-- R67: for every 16-bit value the decoder returns an instruction; it never fails, and reads exactly that value's two bytes. -/
def Obligations.DecodeNeverFails : Prop :=
  ∀ (w : Word) (rest : List Byte), ∃ i : Instr, decodeBytes (highByte w :: lowByte w :: rest) = .ok (i, rest) ∧ decode w = i

/-- R65, R66: a word is `<unknown>` exactly when it matches no row of the opcode map. -/
def Obligations.UnknownExactlyOutsideTheMap : Prop :=
  ∀ w : Word, decode w = .unknown w ↔ ∀ row ∈ opcodeRows, w &&& row.mask ≠ row.pattern

/-- Words of the table in 95_test_vectors.md section 2.1. Every clause is an opcode number of R65 (D5: log entry 5). -/
def Obligations.SampleWordsDecode : Prop :=
  decode 0x00E0#16 = .cls ∧ decode 0x00EE#16 = .ret ∧ decode 0x1ABC#16 = .jpAddr 0xABC#12 ∧
  decode 0x3A42#16 = .seVxByte 0xA#4 0x42#8 ∧ decode 0x6C80#16 = .ldVxByte 0xC#4 0x80#8 ∧
  decode 0x8AB1#16 = .orVxVy 0xA#4 0xB#4 ∧ decode 0x8AB4#16 = .addVxVy 0xA#4 0xB#4 ∧
  decode 0x8AB5#16 = .subVxVy 0xA#4 0xB#4 ∧ decode 0x8AB6#16 = .shrVx 0xA#4 0xB#4 ∧
  decode 0xC1FF#16 = .rndVxByte 1#4 0xFF#8 ∧ decode 0xD125#16 = .drwVxVyNibble 1#4 2#4 5#4 ∧
  decode 0xE19E#16 = .skpVx 1#4 ∧ decode 0xF107#16 = .ldVxDT 1#4 ∧ decode 0xF155#16 = .ldMemVx 1#4 ∧
  decode 0x912F#16 = .unknown 0x912F#16

/-- R60, R67: the decoder over a byte string reads exactly the two bytes of an encoded instruction and leaves the rest. -/
def Obligations.DecodeBytesConsumesTwo : Prop :=
  ∀ (i : Instr) (rest : List Byte), i.wf = true → decodeBytes (encodeBytes i ++ rest) = .ok (i, rest)

/-! ### Screen, jump, call, skip -/

/-- R80: `CLS` turns every pixel off and changes no engine state but `PC` and the timer phase. -/
def Obligations.ClearTurnsEveryPixelOff : Prop :=
  decode 0x00E0#16 = .cls ∧
  ∀ s : State, ∃ t : State, exec .cls s = .next t ∧
    (∀ (px : Fin 64) (py : Fin 32), pixelActive t.fb px py = false) ∧ t.pc = s.pc + 2 ∧
    SameRegsExcept [] s t ∧ SameIndex s t ∧ SameStack s t ∧ SameMemory s t ∧ TimersTicked s t ∧ SameFault s t

/-- R81: `RET` on a stack that is not empty sets `PC` to the top entry and lowers `SP`; the entry is not erased. -/
def Obligations.ReturnPopsTheStack : Prop :=
  decode 0x00EE#16 = .ret ∧
  ∀ s : State, 0 < s.sp → ∃ t : State, exec .ret s = .next t ∧
    t.pc = s.entry (s.sp - 1) ∧ t.sp = s.sp - 1 ∧ t.stack = s.stack ∧
    SameRegsExcept [] s t ∧ SameIndex s t ∧ SameMemory s t ∧ SameScreen s t ∧ TimersTicked s t ∧ SameFault s t

/-- R142 (the spec's decision D9): `RET` on an empty stack takes `StackUnderflow`, and nothing else changes. -/
def Obligations.ReturnOnEmptyStackHalts : Prop :=
  ∀ s : State, s.sp = 0 → exec .ret s = .next { s with fault := some .stackUnderflow }

/-- R84: `JP addr` sets `PC` to the zero-extended address. -/
def Obligations.JumpSetsPc : Prop :=
  ∀ (nnn : Addr) (s : State), decode (0x1#4 ++ nnn) = .jpAddr nnn ∧
    ∃ t : State, exec (.jpAddr nnn) s = .next t ∧ t.pc.toNat = nnn.toNat ∧ RegisterFrame [] s t

/-- R85 (no masking: the spec's D33): `JP V0+addr` sets `PC` to the unmasked sum. -/
def Obligations.JumpOffsetAddsV0 : Prop :=
  ∀ (nnn : Addr) (s : State), decode (0xB#4 ++ nnn) = .jpV0Addr nnn ∧
    ∃ t : State, exec (.jpV0Addr nnn) s = .next t ∧ t.pc.toNat = nnn.toNat + (s.getV 0).toNat ∧
      RegisterFrame [] s t

/-- R86: `CALL addr` while `SP` is not `STACK_DEPTH` (a parameter, the spec's D8: log entry 2) pushes the address after itself
and jumps; the other entries stay. In the unbounded design (no depth) it never is. -/
def Obligations.CallPushesReturnAddress : Prop :=
  ∀ (nnn : Addr) (s : State), decode (0x2#4 ++ nnn) = .callAddr nnn ∧
    (s.params.stackDepth ≠ some s.sp → ∃ t : State, exec (.callAddr nnn) s = .next t ∧ t.pc.toNat = nnn.toNat ∧
      t.sp = s.sp + 1 ∧ t.entry s.sp = s.pc + 2 ∧ (∀ k : Nat, k ≠ s.sp → t.entry k = s.entry k) ∧
      SameRegsExcept [] s t ∧ SameIndex s t ∧ SameMemory s t ∧ SameScreen s t ∧ TimersTicked s t ∧ SameFault s t)

/-- R143 (that there is a bound is the spec's D8, a parameter, 16 by default: log entry 2): a `CALL` with `SP` =
`STACK_DEPTH` takes `StackOverflow`, and nothing else changes. -/
def Obligations.CallAtFullDepthHalts : Prop :=
  ∀ (nnn : Addr) (s : State), s.params.stackDepth = some s.sp → exec (.callAddr nnn) s = .next { s with fault := some .stackOverflow }

/-- 95_test_vectors.md W10: a `RET` in any later state whose stack is as the `CALL` left it goes back to the instruction
after the `CALL`, with `SP` as before the `CALL`. -/
def Obligations.ReturnUndoesCall : Prop :=
  ∀ (nnn : Addr) (s t u : State), exec (.callAddr nnn) s = .next t → s.params.stackDepth ≠ some s.sp →
    u.sp = t.sp → u.entry s.sp = t.entry s.sp →
    ∃ v : State, exec .ret u = .next v ∧ v.pc = s.pc + 2 ∧ v.sp = s.sp

/-- R88 to R91: the four comparing skips write `PC` only, by 4 when the condition holds and by 2 when it does not. That `SE`
skips when equal and `SNE` when not is the spec's reading of the mnemonics (G9: log entry 26). -/
def Obligations.CompareSkips : Prop :=
  ∀ (x y : Reg) (kk : Byte) (s : State),
    decode (0x3#4 ++ x ++ kk) = .seVxByte x kk ∧ decode (0x4#4 ++ x ++ kk) = .sneVxByte x kk ∧
    decode (0x5#4 ++ x ++ y ++ 0#4) = .seVxVy x y ∧ decode (0x9#4 ++ x ++ y ++ 0#4) = .sneVxVy x y ∧
    (∃ t : State, exec (.seVxByte x kk) s = .next t ∧
      t.pc = (if s.getV x = kk then s.pc + 4 else s.pc + 2) ∧ RegisterFrame [] s t) ∧
    (∃ t : State, exec (.sneVxByte x kk) s = .next t ∧
      t.pc = (if s.getV x = kk then s.pc + 2 else s.pc + 4) ∧ RegisterFrame [] s t) ∧
    (∃ t : State, exec (.seVxVy x y) s = .next t ∧
      t.pc = (if s.getV x = s.getV y then s.pc + 4 else s.pc + 2) ∧ RegisterFrame [] s t) ∧
    (∃ t : State, exec (.sneVxVy x y) s = .next t ∧
      t.pc = (if s.getV x = s.getV y then s.pc + 2 else s.pc + 4) ∧ RegisterFrame [] s t)

/-! ### Load, logic, arithmetic, shift -/

/-- R93 to R97: the five loads and logical operations write `V[x]` and no flag. -/
def Obligations.LoadAndLogicResults : Prop :=
  ∀ (x y : Reg) (kk : Byte) (s : State),
    decode (0x6#4 ++ x ++ kk) = .ldVxByte x kk ∧ decode (0x8#4 ++ x ++ y ++ 0#4) = .ldVxVy x y ∧
    decode (0x8#4 ++ x ++ y ++ 1#4) = .orVxVy x y ∧ decode (0x8#4 ++ x ++ y ++ 2#4) = .andVxVy x y ∧
    decode (0x8#4 ++ x ++ y ++ 3#4) = .xorVxVy x y ∧
    (∃ t : State, exec (.ldVxByte x kk) s = .next t ∧ t.getV x = kk ∧ t.pc = s.pc + 2 ∧ RegisterFrame [x] s t) ∧
    (∃ t : State, exec (.ldVxVy x y) s = .next t ∧ t.getV x = s.getV y ∧ t.pc = s.pc + 2 ∧ RegisterFrame [x] s t) ∧
    (∃ t : State, exec (.orVxVy x y) s = .next t ∧ t.getV x = s.getV x ||| s.getV y ∧ t.pc = s.pc + 2 ∧
      RegisterFrame [x] s t) ∧
    (∃ t : State, exec (.andVxVy x y) s = .next t ∧ t.getV x = s.getV x &&& s.getV y ∧ t.pc = s.pc + 2 ∧
      RegisterFrame [x] s t) ∧
    (∃ t : State, exec (.xorVxVy x y) s = .next t ∧ t.getV x = s.getV x ^^^ s.getV y ∧ t.pc = s.pc + 2 ∧
      RegisterFrame [x] s t)

/-- R98 (the instruction is supplied by the spec, D6: log entry 6): `LD I,addr` loads the zero-extended address, `VF` untouched. -/
def Obligations.LoadIndexAddress : Prop :=
  ∀ (nnn : Addr) (s : State), decode (0xA#4 ++ nnn) = .ldIAddr nnn ∧
    ∃ t : State, exec (.ldIAddr nnn) s = .next t ∧ t.i.toNat = nnn.toNat ∧ t.pc = s.pc + 2 ∧
      SameRegsExcept [] s t ∧ SameStack s t ∧ SameMemory s t ∧ SameScreen s t ∧ TimersTicked s t ∧ SameFault s t

/-- R101: `ADD Vx,byte` wraps and writes no flag. -/
def Obligations.AddImmediateWraps : Prop :=
  ∀ (x : Reg) (kk : Byte) (s : State), decode (0x7#4 ++ x ++ kk) = .addVxByte x kk ∧
    ∃ t : State, exec (.addVxByte x kk) s = .next t ∧ (t.getV x).toNat = ((s.getV x).toNat + kk.toNat) % 256 ∧
      t.pc = s.pc + 2 ∧ RegisterFrame [x] s t

/-- R102, R104, R105: result modulo 256 and the flag, the comparison strict; for `x = 15` the register ends as the flag
(that order is the spec's D16: log entry 24). -/
def Obligations.AddSubtractResultsAndFlags : Prop :=
  ∀ (x y : Reg) (s : State),
    decode (0x8#4 ++ x ++ y ++ 4#4) = .addVxVy x y ∧ decode (0x8#4 ++ x ++ y ++ 5#4) = .subVxVy x y ∧
    decode (0x8#4 ++ x ++ y ++ 7#4) = .subnVxVy x y ∧
    (∃ t : State, exec (.addVxVy x y) s = .next t ∧
      (x ≠ regVF → (t.getV x).toNat = ((s.getV x).toNat + (s.getV y).toNat) % 256) ∧
      FlagIs t ((s.getV x).toNat + (s.getV y).toNat > 255) ∧ t.pc = s.pc + 2 ∧ RegisterFrame [x, regVF] s t) ∧
    (∃ t : State, exec (.subVxVy x y) s = .next t ∧
      (x ≠ regVF → (t.getV x).toNat = ((s.getV x).toNat + 256 - (s.getV y).toNat) % 256) ∧
      FlagIs t ((s.getV x).toNat > (s.getV y).toNat) ∧ t.pc = s.pc + 2 ∧ RegisterFrame [x, regVF] s t) ∧
    (∃ t : State, exec (.subnVxVy x y) s = .next t ∧
      (x ≠ regVF → (t.getV x).toNat = ((s.getV y).toNat + 256 - (s.getV x).toNat) % 256) ∧
      FlagIs t ((s.getV y).toNat > (s.getV x).toNat) ∧ t.pc = s.pc + 2 ∧ RegisterFrame [x, regVF] s t)

/-- R106, R107: shifts by one of `V[x]` in place, `VF` the bit shifted out, whatever the field `y` holds (the flag is
written last, the spec's D16: log entry 24). -/
def Obligations.ShiftsByOneAndFlags : Prop :=
  ∀ (x y : Reg) (s : State),
    decode (0x8#4 ++ x ++ y ++ 6#4) = .shrVx x y ∧ decode (0x8#4 ++ x ++ y ++ 0xE#4) = .shlVx x y ∧
    (∃ t : State, exec (.shrVx x y) s = .next t ∧ (x ≠ regVF → (t.getV x).toNat = (s.getV x).toNat / 2) ∧
      FlagIs t ((s.getV x).toNat % 2 = 1) ∧ t.pc = s.pc + 2 ∧ RegisterFrame [x, regVF] s t) ∧
    (∃ t : State, exec (.shlVx x y) s = .next t ∧ (x ≠ regVF → (t.getV x).toNat = (s.getV x).toNat * 2 % 256) ∧
      FlagIs t ((s.getV x).toNat ≥ 128) ∧ t.pc = s.pc + 2 ∧ RegisterFrame [x, regVF] s t)

/-- R103 (the spec's D15 and 90_conflicts.md C2: log entry 7): `I` wraps at 16 bits, `VF` is 1 exactly when the unwrapped sum
exceeds 0x1000 where the parameter `ADDI_STRICT` is true, its default, and exactly when it is at least 0x1000 where it is
false. -/
def Obligations.AddToIndexAndRangeFlag : Prop :=
  ∀ (x : Reg) (s : State), decode (0xF#4 ++ x ++ 0x1E#8) = .addIVx x ∧
    ∃ t : State, exec (.addIVx x) s = .next t ∧ t.i.toNat = (s.i.toNat + (s.getV x).toNat) % 65536 ∧
      FlagIs t (if s.params.addiStrict = true then s.i.toNat + (s.getV x).toNat > 0x1000
        else s.i.toNat + (s.getV x).toNat ≥ 0x1000) ∧ t.pc = s.pc + 2 ∧
      SameRegsExcept [regVF] s t ∧ SameStack s t ∧ SameMemory s t ∧ SameScreen s t ∧ TimersTicked s t ∧
      SameFault s t

/-! ### Random and draw -/

/-- R113 (the byte is a free input, the spec's D21: log entry 12): `RND` leaves the drawn byte ANDed with `kk`, so no bit
outside `kk` is set, whatever the byte is; and every byte can be drawn. -/
def Obligations.RandomByteIsMasked : Prop :=
  ∀ (x : Reg) (kk : Byte) (s : State), decode (0xC#4 ++ x ++ kk) = .rndVxByte x kk ∧
    (∃ t : State, exec (.rndVxByte x kk) s = .next t ∧ t.getV x = s.inputs.rnd &&& kk ∧
      t.getV x &&& ~~~kk = 0 ∧ t.pc = s.pc + 2 ∧ RegisterFrame [x] s t) ∧
    ∀ r : Byte, ∃ (e : List StepInputs) (t : State),
      exec (.rndVxByte x kk) { s with env := e } = .next t ∧ t.getV x = r &&& kk

/-- R114 (bit order, clipping of reads and order of writes are the spec's D20: log entry 27): when every row drawn lies in
memory, each visible 1 bit flips its pixel and no other pixel changes, and `VF` is 1 exactly when a flipped pixel was on. -/
def Obligations.DrawFlipsSpritePixels : Prop :=
  ∀ (x y : Reg) (n : Nibble) (s : State), decode (0xD#4 ++ x ++ y ++ n) = .drwVxVyNibble x y n ∧
    (rowsRead s y n = 0 ∨ s.i.toNat + rowsRead s y n ≤ 0x1000 →
      ∃ t : State, exec (.drwVxVyNibble x y n) s = .next t ∧
        (∀ (px : Fin 64) (py : Fin 32),
          pixelActive t.fb px py = (spriteBit s x y n px py ^^ pixelActive s.fb px py)) ∧
        FlagIs t (∃ (px : Fin 64) (py : Fin 32), spriteBit s x y n px py = true ∧ pixelActive s.fb px py = true) ∧
        t.pc = s.pc + 2 ∧ SameRegsExcept [regVF] s t ∧ SameIndex s t ∧ SameStack s t ∧ SameMemory s t ∧
        TimersTicked s t ∧ SameFault s t)

/-- R114, R141(c) (the check before any effect is the spec's D20, D10): a drawn row above 0xFFF is a read fault at
`max(I, 0x1000)`, and nothing else changes. -/
def Obligations.DrawOutOfMemoryHalts : Prop :=
  ∀ (x y : Reg) (n : Nibble) (s : State), 0 < rowsRead s y n → s.i.toNat + rowsRead s y n > 0x1000 →
    exec (.drwVxVyNibble x y n) s =
      .next { s with fault := some (.memoryFault .read (BitVec.ofNat 17 (max s.i.toNat 0x1000))) }

/-- 95_test_vectors.md W7: an identical sprite drawn twice at the same coordinates (neither coordinate kept in `VF`, which
the first draw overwrites) restores every pixel, and the second draw reports a collision exactly when it flips a pixel
that was off before the first. Which pixels a sprite covers (bit 7 leftmost, clipping) is the spec's D20 (log entry 27);
that a flipped pixel stays until it is flipped again is the reference Display's (R158: log entry 14). -/
def Obligations.DrawingTwiceRestoresScreen : Prop :=
  ∀ (x y : Reg) (n : Nibble) (s t u : State), x ≠ regVF → y ≠ regVF →
    (rowsRead s y n = 0 ∨ s.i.toNat + rowsRead s y n ≤ 0x1000) →
    exec (.drwVxVyNibble x y n) s = .next t → exec (.drwVxVyNibble x y n) t = .next u →
    SameScreen s u ∧
    FlagIs u (∃ (px : Fin 64) (py : Fin 32), spriteBit s x y n px py = true ∧ pixelActive s.fb px py = false)

/-! ### Keys and timers -/

/-- R120, R121 (the polarity is the spec's D17, the range of keys its D23: log entries 13, 26): `SKP` skips exactly when the
key numbered by all 8 bits of `V[x]` is answered as pressed, `SKNP` exactly when it is not; an index of `NKEYS` (a parameter,
16 by default) or more never is pressed. -/
def Obligations.KeySkips : Prop :=
  ∀ (x : Reg) (s : State),
    decode (0xE#4 ++ x ++ 0x9E#8) = .skpVx x ∧ decode (0xE#4 ++ x ++ 0xA1#8) = .sknpVx x ∧
    (∃ t : State, exec (.skpVx x) s = .next t ∧
      t.pc = (if (s.getV x).toNat < s.params.nkeys ∧ s.inputs.keyPressed = true then s.pc + 4 else s.pc + 2) ∧
      RegisterFrame [] s t) ∧
    (∃ t : State, exec (.sknpVx x) s = .next t ∧
      t.pc = (if (s.getV x).toNat < s.params.nkeys ∧ s.inputs.keyPressed = true then s.pc + 2 else s.pc + 4) ∧
      RegisterFrame [] s t)

/-- R122 to R124: `LD Vx,DT` reads `DT` as this step's timer phase left it; `LD DT,Vx` and `LD ST,Vx` write after the timer
phase, so that the written value survives the step. -/
def Obligations.TimerLoads : Prop :=
  ∀ (x : Reg) (s : State),
    decode (0xF#4 ++ x ++ 0x07#8) = .ldVxDT x ∧ decode (0xF#4 ++ x ++ 0x15#8) = .ldDTVx x ∧
    decode (0xF#4 ++ x ++ 0x18#8) = .ldSTVx x ∧
    (∃ t : State, exec (.ldVxDT x) s = .next t ∧
      (t.getV x).toNat = (if s.cyc.val = 2 then s.dt.toNat - 1 else s.dt.toNat) ∧ t.getV x = t.dt ∧
      t.pc = s.pc + 2 ∧ RegisterFrame [x] s t) ∧
    (∃ t : State, exec (.ldDTVx x) s = .next t ∧ t.dt = s.getV x ∧ t.st = tickTimer s.cyc s.st ∧
      t.cyc = nextCyc s.cyc ∧ t.pc = s.pc + 2 ∧ SameRegsExcept [] s t ∧ SameIndex s t ∧ SameStack s t ∧
      SameMemory s t ∧ SameScreen s t ∧ SameFault s t) ∧
    (∃ t : State, exec (.ldSTVx x) s = .next t ∧ t.st = s.getV x ∧ t.dt = tickTimer s.cyc s.dt ∧
      t.cyc = nextCyc s.cyc ∧ t.pc = s.pc + 2 ∧ SameRegsExcept [] s t ∧ SameIndex s t ∧ SameStack s t ∧
      SameMemory s t ∧ SameScreen s t ∧ SameFault s t)

/-- R125 (the timers run on, the spec's D19; the range of keys, its D23: log entry 13): with a key the index, below `NKEYS`, is
stored and the program goes on; without one `PC` is where it was and no register changes. -/
def Obligations.KeyWaitStoresOrRetries : Prop :=
  ∀ (x : Reg) (s : State), decode (0xF#4 ++ x ++ 0x0A#8) = .ldVxK x ∧
    ∃ t : State, exec (.ldVxK x) s = .next t ∧
      (∀ k, keyIndexAnswer s.params s.inputs = some k →
        t.getV x = k ∧ k.toNat < s.params.nkeys ∧ t.pc = s.pc + 2 ∧ RegisterFrame [x] s t) ∧
      (keyIndexAnswer s.params s.inputs = none → t.pc = s.pc ∧ RegisterFrame [] s t)

/-- 95_test_vectors.md W8: while the Keypad has no key, `n` steps at a `LD Vx,K` leave `PC` and every register unchanged;
the first step with a key stores it and advances. -/
def Obligations.KeyWaitSuspends : Prop :=
  ∀ (n : Nat) (x : Reg) (w : Word) (s : State), s.fault = none → s.fetchWord = .ok w → decode w = .ldVxK x →
    (∀ k : Nat, k < n → keyIndexAnswer s.params (s.inputsAt k) = none) →
    ∃ t : State, Host.Core.run Sys2Proof.core n s = .next t ∧ t.pc = s.pc ∧ t.v = s.v ∧ t.fault = none ∧
      SameMemory s t ∧
      ∀ key, keyIndexAnswer s.params (s.inputsAt n) = some key →
        ∃ u : State, step t = .next u ∧ u.getV x = key ∧ u.pc = s.pc + 2

/-! ### Index and memory -/

/-- R128 (all 8 bits, the spec's D22): `LD F,Vx` points `I` at `0x50 + 5 * V[x]`. -/
def Obligations.FontPointer : Prop :=
  ∀ (x : Reg) (s : State), decode (0xF#4 ++ x ++ 0x29#8) = .ldFVx x ∧
    ∃ t : State, exec (.ldFVx x) s = .next t ∧ t.i.toNat = 0x50 + 5 * (s.getV x).toNat ∧ t.pc = s.pc + 2 ∧
      SameRegsExcept [] s t ∧ SameStack s t ∧ SameMemory s t ∧ SameScreen s t ∧ TimersTicked s t ∧ SameFault s t

/-- R129: the three decimal digits at `I`, `I+1`, `I+2` and nowhere else, or the fault and no write. The check of the whole
range before any effect and the fault's address are the spec's D10 (log entry 19). -/
def Obligations.BcdStoresThreeDigits : Prop :=
  ∀ (x : Reg) (s : State), decode (0xF#4 ++ x ++ 0x33#8) = .ldBVx x ∧
    (s.MemoryCanonical → s.i.toNat + 2 ≤ 0xFFF →
      ∃ t : State, exec (.ldBVx x) s = .next t ∧
        (t.byteAt s.i.toNat).toNat = (s.getV x).toNat / 100 ∧
        (t.byteAt (s.i.toNat + 1)).toNat = (s.getV x).toNat / 10 % 10 ∧
        (t.byteAt (s.i.toNat + 2)).toNat = (s.getV x).toNat % 10 ∧
        SameMemoryOutside s.i.toNat 3 s t ∧ t.pc = s.pc + 2 ∧ SameRegsExcept [] s t ∧ SameIndex s t ∧
        SameStack s t ∧ SameScreen s t ∧ TimersTicked s t ∧ SameFault s t) ∧
    (s.i.toNat + 2 > 0xFFF → exec (.ldBVx x) s =
      .next { s with fault := some (.memoryFault .write (BitVec.ofNat 17 (max s.i.toNat 0x1000))) })

/-- R130: `V[0]`..`V[x]` at `I`..`I+x` and nowhere else, `I` unchanged, or the fault and no write. The check of the whole
range before any effect and the fault's address are the spec's D10 (log entry 19). -/
def Obligations.BlockStoreCopiesRegisters : Prop :=
  ∀ (x : Reg) (s : State), decode (0xF#4 ++ x ++ 0x55#8) = .ldMemVx x ∧
    (s.MemoryCanonical → s.i.toNat + x.toNat ≤ 0xFFF →
      ∃ t : State, exec (.ldMemVx x) s = .next t ∧
        (∀ r : Reg, r.toNat ≤ x.toNat → t.byteAt (s.i.toNat + r.toNat) = s.getV r) ∧
        SameMemoryOutside s.i.toNat (x.toNat + 1) s t ∧ t.pc = s.pc + 2 ∧ SameRegsExcept [] s t ∧ SameIndex s t ∧
        SameStack s t ∧ SameScreen s t ∧ TimersTicked s t ∧ SameFault s t) ∧
    (s.i.toNat + x.toNat > 0xFFF → exec (.ldMemVx x) s =
      .next { s with fault := some (.memoryFault .write (BitVec.ofNat 17 (max s.i.toNat 0x1000))) })

/-- R131: `V[0]`..`V[x]` from `I`..`I+x`, the other registers, `I` and memory unchanged, or the fault and no register
written. The check of the whole range before any effect and the fault's address are the spec's D10 (log entry 19). -/
def Obligations.BlockLoadFillsRegisters : Prop :=
  ∀ (x : Reg) (s : State), decode (0xF#4 ++ x ++ 0x65#8) = .ldVxMem x ∧
    (s.i.toNat + x.toNat ≤ 0xFFF →
      ∃ t : State, exec (.ldVxMem x) s = .next t ∧
        (∀ r : Reg, r.toNat ≤ x.toNat → t.getV r = s.byteAt (s.i.toNat + r.toNat)) ∧
        (∀ r : Reg, x.toNat < r.toNat → t.getV r = s.getV r) ∧ t.pc = s.pc + 2 ∧ SameIndex s t ∧ SameStack s t ∧
        SameMemory s t ∧ SameScreen s t ∧ TimersTicked s t ∧ SameFault s t) ∧
    (s.i.toNat + x.toNat > 0xFFF → exec (.ldVxMem x) s =
      .next { s with fault := some (.memoryFault .read (BitVec.ofNat 17 (max s.i.toNat 0x1000))) })

/-- R134: a word is `<unknown>` exactly when it matches no defined row (the rows' numbers are the spec's D5 and D7: log entry
5), and `<unknown>`, whatever its fields, does nothing but advance `PC` and run the timer phase. -/
def Obligations.UnknownDoesNothing : Prop :=
  ∀ (w : Word) (s : State), (isUnknownWord w = true ↔ decode w = .unknown w) ∧
    ∃ t : State, exec (.unknown w) s = .next t ∧ t.pc = s.pc + 2 ∧ RegisterFrame [] s t

/-! ### The step -/

/-- R21, R44: a running engine whose `PC` is at most 0xFFE executes the instruction that the two bytes at `PC`, the first
one high, decode to; so the bytes of a well-formed instruction run that instruction. -/
def Obligations.StepRunsDecodedInstruction : Prop :=
  ∀ s : State, s.fault = none → s.pc.toNat ≤ 0xFFE →
    step s = exec (decode (s.byteAt s.pc.toNat ++ s.byteAt (s.pc.toNat + 1))) s ∧
    ∀ i : Instr, i.wf = true → [s.byteAt s.pc.toNat, s.byteAt (s.pc.toNat + 1)] = encodeBytes i → step s = exec i s

/-- R44: the instruction word is the two bytes at `PC` and `PC + 1`, the one at the lower address in bits 15..8, whatever the
state is; and a program image, loaded after reset, is its words in the same order from 0x200 upward. -/
def Obligations.FetchIsBigEndian : Prop :=
  (∀ s : State, s.pc.toNat ≤ 0xFFE → ∃ w : Word, s.fetchWord = .ok w ∧
    w.extractLsb' 8 8 = s.byteAt s.pc.toNat ∧ w.extractLsb' 0 8 = s.byteAt (s.pc.toNat + 1)) ∧
  ∀ (p : Params) (bytes : List Byte) (j : Nat) (hi lo : Byte), bytes.length ≤ 3584 →
    bytes[j]? = some hi → bytes[j + 1]? = some lo →
    (((State.resetWith p).loadProgram bytes).setPc (BitVec.ofNat 16 (0x200 + j))).fetchWord = .ok (hi ++ lo)

/-- R43, R141(a, b), R148 (the fault of a fetch is the spec's D11): a running engine whose `PC` is above 0xFFE takes a fetch
fault at the lowest address out of range. -/
def Obligations.FetchBeyondMemoryHalts : Prop :=
  ∀ s : State, s.fault = none → s.pc.toNat > 0xFFE →
    step s = .next { s with fault := some (.memoryFault .fetch (BitVec.ofNat 17 (max s.pc.toNat 0x1000))) }

/-- R145 (the spec's D27): a halted engine is stepped any number of times without any change. -/
def Obligations.HaltedEngineNeverChanges : Prop :=
  ∀ (n : Nat) (s : State), s.fault ≠ none → Host.Core.run Sys2Proof.core n s = .next s

/-- R144 (the spec's D13): when a step of a running engine ends in a fault, the fault status is all that changed. -/
def Obligations.FaultsArePrecise : Prop :=
  ∀ s t : State, s.fault = none → step s = .next t → t.fault ≠ none → t = { s with fault := t.fault }

/-- R140, R67: every step answers a next state, and a step of a running engine ends in a fault exactly when the fetch is out
of memory or the fetched instruction raises the fault that the table gives it; no other instruction can.
`StackUnderflow` is the spec's D9, `StackOverflow` its D8, the data fault its D10, the fetch fault its D11 (log entries 2, 19). -/
def Obligations.StepFaultsExactlyAsListed : Prop :=
  ∀ s : State, ∃ t : State, step s = .next t ∧
    (s.fault = none →
      (s.pc.toNat ≤ 0xFFE →
        t.fault = faultOf (decode (s.byteAt s.pc.toNat ++ s.byteAt (s.pc.toNat + 1))) s) ∧
      (s.pc.toNat > 0xFFE →
        t.fault = some (.memoryFault .fetch (BitVec.ofNat 17 (max s.pc.toNat 0x1000)))))

/-- R22: what every instruction leaves in `PC`, row by row, where it was fetched from `s.pc`, which is at most 0xFFE; `PC`
stays where it is when the step faults; no row but `RET`'s popped entry can exceed 0x10FE, and none but that and `JP V0+addr` can
exceed 0x1002. The conditions of `SE` and `SNE` are the spec's G9 and those of `SKP` and `SKNP` its D17 and D23 (log entries 13,
26), the unmasked sum is its D33 (log entry 19). -/
def Obligations.PcAfterEveryInstruction : Prop :=
  ∀ (s : State) (w : Word), s.fault = none → s.fetchWord = .ok w →
    ∃ t : State, step s = .next t ∧
      (faultOf (decode w) s = none → t.pc = pcAfter (decode w) s) ∧
      (faultOf (decode w) s ≠ none → t.pc = s.pc) ∧
      s.pc.toNat ≤ 0xFFE ∧ (decode w ≠ .ret → t.pc.toNat ≤ 0x10FE) ∧
      (decode w ≠ .ret → (∀ nnn, decode w ≠ .jpV0Addr nnn) → t.pc.toNat ≤ 0x1002)

/-- R151 (the spec's D18, D19): every step of a running engine that does not fault advances `CYC` modulo 3, and each timer that the
instruction does not set is decremented, floored at 0, exactly when the new `CYC` is 0. -/
def Obligations.TimerPhaseInEveryStep : Prop :=
  ∀ (s t : State) (w : Word), s.fault = none → s.fetchWord = .ok w → step s = .next t → t.fault = none →
    t.cyc.val = (s.cyc.val + 1) % 3 ∧
    ((∀ x, decode w ≠ .ldDTVx x) → t.dt.toNat = if (s.cyc.val + 1) % 3 = 0 then s.dt.toNat - 1 else s.dt.toNat) ∧
    ((∀ x, decode w ≠ .ldSTVx x) → t.st.toNat = if (s.cyc.val + 1) % 3 = 0 then s.st.toNat - 1 else s.st.toNat)

/-- R152, 95_test_vectors.md W9: over three steps that do not fault and set no timer, from any state, both timers decrement by
exactly 1, never below 0. R153: the timers count steps, not time: over any number `n` of such steps each timer decrements once for
each decrementing step among them, `(CYC + n) / 3`, never below 0, whatever the steps execute and whenever they are requested
(which residue of `CYC` decrements is the spec's D18: log entry 10). -/
def Obligations.ThreeStepsDecrementOnce : Prop :=
  (∀ a b c d : State, step a = .next b → step b = .next c → step c = .next d → a.fault = none → d.fault = none →
    (∀ s ∈ [a, b, c], ∀ (w : Word) (x : Reg), s.fetchWord = .ok w → decode w ≠ .ldDTVx x ∧ decode w ≠ .ldSTVx x) →
    d.dt.toNat = a.dt.toNat - 1 ∧ d.st.toNat = a.st.toNat - 1 ∧ d.cyc = a.cyc) ∧
  ∀ (n : Nat) (s t : State), Host.Core.run Sys2Proof.core n s = .next t → t.fault = none →
    (∀ (k : Nat) (u : State) (w : Word) (x : Reg), k < n → Host.Core.run Sys2Proof.core k s = .next u →
      u.fetchWord = .ok w → decode w ≠ .ldDTVx x ∧ decode w ≠ .ldSTVx x) →
    t.dt.toNat = s.dt.toNat - decrementsIn s.cyc n ∧ t.st.toNat = s.st.toNat - decrementsIn s.cyc n ∧
    t.cyc.val = (s.cyc.val + n) % 3

/-- R15: the writers of `DT` are `LD DT,Vx` (`DT <- V[x]`) and the timer phase (one less, floored at 0), those of `ST` likewise;
`LD Vx,DT` reads `DT`, and nothing else of a step depends on it; nothing at all depends on `ST`, so neither timer sets a flag or
changes control flow at any value; both are in the snapshot. Which of write, read and timer phase comes first this leaves open
(the spec's C1: log entry 10; `TimerLoads` says it). -/
def Obligations.TimersWrittenAndReadAsListed : Prop :=
  ∀ (s t : State) (w : Word), s.fault = none → s.fetchWord = .ok w → step s = .next t →
    (t.dt = s.dt ∨ t.dt = floorDec s.dt ∨ ∃ x, decode w = .ldDTVx x) ∧
    (t.st = s.st ∨ t.st = floorDec s.st ∨ ∃ x, decode w = .ldSTVx x) ∧
    (∀ x, decode w = .ldDTVx x → t.dt = s.getV x ∨ t.dt = floorDec (s.getV x)) ∧
    (∀ x, decode w = .ldSTVx x → t.st = s.getV x ∨ t.st = floorDec (s.getV x)) ∧
    (∀ x, decode w = .ldVxDT x → t.getV x = s.dt ∨ t.getV x = t.dt) ∧
    (∀ b : Byte, ∃ c : Byte, step { s with st := b } = .next { t with st := c }) ∧
    ((∀ x, decode w ≠ .ldVxDT x) → ∀ b : Byte, ∃ c : Byte, step { s with dt := b } = .next { t with dt := c }) ∧
    (∀ x, decode w = .ldVxDT x → ∀ b : Byte, ∃ c d : Byte,
      step { s with dt := b } = .next { t.setV x d with dt := c }) ∧
    s.snapshot.dt = s.dt ∧ s.snapshot.st = s.st

/-! ### Who writes what -/

/-- R10, R11: a step changes a general register only if it is a destination of the fetched instruction, or `VF` for the seven
instructions that write it. -/
def Obligations.OnlyDestinationsChange : Prop :=
  ∀ (s t : State) (w : Word) (r : Reg), s.fault = none → s.fetchWord = .ok w → step s = .next t →
    t.getV r ≠ s.getV r → r ∈ destinations (decode w)

/-- R12: only `LD I,addr`, `ADD I,Vx` and `LD F,Vx` change `I`. -/
def Obligations.OnlyIndexWritersChangeIndex : Prop :=
  ∀ (s t : State) (w : Word), s.fault = none → s.fetchWord = .ok w → step s = .next t → t.i ≠ s.i →
    (∃ nnn, decode w = .ldIAddr nnn) ∨ (∃ x, decode w = .addIVx x) ∨ ∃ x, decode w = .ldFVx x

/-- R40: a step changes a byte of memory only if it executes `LD B,Vx` or `LD [I],Vx` and the byte is one of those it stores. -/
def Obligations.OnlyStoresChangeMemory : Prop :=
  ∀ (s t : State) (w : Word) (a : Nat), s.fault = none → s.fetchWord = .ok w → step s = .next t →
    t.byteAt a ≠ s.byteAt a → s.i.toNat ≤ a ∧ a < s.i.toNat + storedBytes (decode w)

/-- R14: only `CALL` and `RET` change the stack or `SP`; no step changes an entry in use; and `SP` stays within `STACK_DEPTH`
(a parameter, the spec's D8: log entry 2). -/
def Obligations.OnlyCallAndReturnTouchStack : Prop :=
  ∀ (s t : State) (w : Word), s.fault = none → s.fetchWord = .ok w → step s = .next t →
    (t.sp ≠ s.sp ∨ t.stack ≠ s.stack → (∃ nnn, decode w = .callAddr nnn) ∨ decode w = .ret) ∧
    (∀ k : Nat, k < s.sp → t.entry k = s.entry k) ∧ (s.StackBounded → t.StackBounded)

/-- R155: only `CLS` and `DRW` change a pixel. That no Display changes a pixel on its own is the reading of its contract that
R158 calls an assumption (log entry 14); this says that the model keeps to it. -/
def Obligations.OnlyClearAndDrawChangeScreen : Prop :=
  ∀ (s t : State) (w : Word) (px : Fin 64) (py : Fin 32), s.fault = none → s.fetchWord = .ok w → step s = .next t →
    pixelActive t.fb px py ≠ pixelActive s.fb px py →
    decode w = .cls ∨ ∃ x y n, decode w = .drwVxVyNibble x y n

/-- R20(d, e), R182, in the model's own terms (log entries 12, 15): a step that does not fault draws its own inputs, so that the
next step sees the following ones, closes the load window, and keeps the parameters (log entry 28). -/
def Obligations.CommittedStepDrawsInputs : Prop :=
  ∀ (s t : State) (w : Word), s.fault = none → s.fetchWord = .ok w → step s = .next t → t.fault = none →
    (∀ k : Nat, t.inputsAt k = s.inputsAt (k + 1)) ∧ t.loadOpen = false ∧ t.params = s.params

/-- R51: a store is seen by the fetch of the very next step: a `LD [I],Vx` (with `x` at least 1) that stores over the
instruction after it is followed by the execution of the new word, `V[0]` its high byte. -/
def Obligations.NextFetchSeesStore : Prop :=
  ∀ (s : State) (w : Word) (x : Reg), s.fault = none → s.MemoryCanonical → s.fetchWord = .ok w →
    decode w = .ldMemVx x → 1 ≤ x.toNat → s.i = s.pc + 2 → s.i.toNat + x.toNat ≤ 0xFFF →
    ∃ t : State, step s = .next t ∧ step t = exec (decode (s.getV 0 ++ s.getV 1)) t

/-! ### Invariants -/

/-- R18, R40, R43: every step keeps memory in its canonical form, inside the 4096 bytes (the form is the model's own). -/
def Obligations.StepKeepsMemoryCanonical : Prop :=
  ∀ s t : State, s.MemoryCanonical → step s = .next t → t.MemoryCanonical

/-- R13, R22, R81: every step keeps `PC` at most 0x10FE and every live stack entry at most 0x1000, so `PC` never wraps. -/
def Obligations.StepKeepsPcBounded : Prop :=
  ∀ s t : State, s.PcBounded → step s = .next t → t.PcBounded

/-- The invariants hold after reset, whatever the parameters are. -/
def Obligations.ResetSatisfiesInvariants : Prop :=
  ∀ p : Params, (State.resetWith p).MemoryCanonical ∧ (State.resetWith p).PcBounded ∧ (State.resetWith p).StackBounded

/-- R188 (a convention, the spec's D34): once finished, every later step leaves the registers, `I`, `PC`, the stack, memory and the
screen unchanged and runs the timers, and the program stays finished. -/
def Obligations.FinishedProgramStaysFinished : Prop :=
  ∀ s : State, s.Finished → ∃ t : State, step s = .next t ∧ t.Finished ∧ t.pc = s.pc ∧ RegisterFrame [] s t

/-! ### Reset and load -/

/-- R24, R180, R181: after the reset input, from any state, the engine's state is the table of R24 at its parameters, and the
framebuffer is untouched, as R181 says; the defaults of the parameters are those of R5. `PC` is the document's; the zeros are
the spec's D2 and D18 (log entries 8, 10), the defaults its D3, D4, D8, D15, D23, D25 (log entries 2, 3, 4, 7, 11, 13); that
a load is accepted is the window of R182 (D32: log entry 15). -/
def Obligations.ResetStateFromAnyState : Prop :=
  (∀ s : State, s.rst.pc = 0x200 ∧ (∀ r : Reg, s.rst.getV r = 0) ∧ s.rst.i = 0 ∧ s.rst.dt = 0 ∧ s.rst.st = 0 ∧
    s.rst.sp = 0 ∧ s.rst.cyc.val = 0 ∧ s.rst.fault = none ∧
    (∀ (j : Nat) (h : j < 80), s.rst.byteAt (0x50 + j) = s.params.font[j]) ∧
    (∀ a : Nat, a < 0x50 ∨ 0xA0 ≤ a → s.rst.byteAt a = s.params.memInit) ∧ SameScreen s s.rst ∧
    s.rst.params = s.params ∧ s.rst.loadAccepted = true) ∧
  (∀ p : Params, (State.resetWith p).params = p ∧ (State.resetWith p).fb = p.fbInit) ∧
  State.reset = State.resetWith Config.defaultParams ∧ Config.defaultParams.stackDepth = some 16 ∧
  Config.defaultParams.nkeys = 16 ∧ Config.defaultParams.memInit = 0 ∧ Config.defaultParams.addiStrict = true ∧
  Config.defaultParams.font = Config.font ∧
  ∀ (px : Fin 64) (py : Fin 32), pixelActive Config.defaultParams.fbInit px py = false

/-- R183: an accepted load of at most 3584 bytes puts byte `j` at `0x200 + j`, and nothing else changes (but that a second
load is no longer accepted); bytes 0 and 1 are the first instruction, byte 0 high, so that a step at `PC` 0x200 runs it.
When a load is accepted, and that only one is, is R182's (D32: log entry 15). -/
def Obligations.LoadCopiesProgram : Prop :=
  ∀ (s : State) (bytes : List Byte), s.loadAccepted = true → s.MemoryCanonical → bytes.length ≤ 3584 →
    (∀ (j : Nat) (b : Byte), bytes[j]? = some b → (s.loadProgram bytes).byteAt (0x200 + j) = b) ∧
    SameMemoryOutside 0x200 bytes.length s (s.loadProgram bytes) ∧
    s.loadProgram bytes = { s with mem := (s.loadProgram bytes).mem, loadOpen := false } ∧
    ∀ (hi lo : Byte) (rest : List Byte), bytes = hi :: lo :: rest → s.pc = 0x200 →
      step (s.loadProgram bytes) = exec (decode (hi ++ lo)) (s.loadProgram bytes)

/-- R146, R184 (the spec's D26): an accepted load of more than 3584 bytes copies nothing and halts the engine with
`ProgramTooLarge`; every later step changes nothing. -/
def Obligations.OversizeLoadHalts : Prop :=
  ∀ (s : State) (bytes : List Byte) (n : Nat), s.loadAccepted = true → bytes.length > 3584 →
    (s.loadProgram bytes).fault = some .programTooLarge ∧ (s.loadProgram bytes).mem = s.mem ∧
    Host.Core.run Sys2Proof.core n (s.loadProgram bytes) = .next (s.loadProgram bytes)

/-- R182 (the spec's D32: log entry 15): after a load, and after any step of a running engine, every further load is ignored. -/
def Obligations.LaterLoadsAreIgnored : Prop :=
  ∀ (s t : State) (p q : List Byte),
    (s.loadProgram p).loadProgram q = s.loadProgram p ∧
    (s.fault = none → step s = .next t → t.loadProgram q = t)

/-- The model's own (log entry 21): the state the host places a 16-bit word in runs exactly that word in its next step. -/
def Obligations.PlacedWordRunsNext : Prop :=
  ∀ (s : State) (w : Word), s.MemoryCanonical →
    step (s.withFetchWord 16 w.toNat) = exec (decode w) (s.withFetchWord 16 w.toNat) ∧
    decodeTableWord 16 w.toNat = some (decode w)
end

