-- ==== Sys2Proof/Laws/Decode.lean ====
section
/-! SUPPORT. The fields of the words of each format (30_encoding.md R61, R62), a word put together again from its fields,
and the decoder by class (R64). -/

namespace Sys2Proof

/-! ### The fields of an encoded word -/

@[simp] theorem fieldC_wordA (c : BitVec 4) (nnn : Addr) : fieldC (wordA c nnn) = c := by
  unfold fieldC wordA
  apply BitVec.eq_of_getLsbD_eq; intro i hi
  interval_cases i <;> simp only [BitVec.getLsbD_extractLsb', BitVec.getLsbD_append] <;> rfl

@[simp] theorem fieldNNN_wordA (c : BitVec 4) (nnn : Addr) : fieldNNN (wordA c nnn) = nnn := by
  unfold fieldNNN wordA
  apply BitVec.eq_of_getLsbD_eq; intro i hi
  interval_cases i <;> simp only [BitVec.getLsbD_extractLsb', BitVec.getLsbD_append] <;> rfl

@[simp] theorem fieldC_wordXK (c : BitVec 4) (x : Reg) (kk : Byte) : fieldC (wordXK c x kk) = c := by
  unfold fieldC wordXK
  apply BitVec.eq_of_getLsbD_eq; intro i hi
  interval_cases i <;> simp only [BitVec.getLsbD_extractLsb', BitVec.getLsbD_append] <;> rfl

@[simp] theorem fieldX_wordXK (c : BitVec 4) (x : Reg) (kk : Byte) : fieldX (wordXK c x kk) = x := by
  unfold fieldX wordXK
  apply BitVec.eq_of_getLsbD_eq; intro i hi
  interval_cases i <;> simp only [BitVec.getLsbD_extractLsb', BitVec.getLsbD_append] <;> rfl

@[simp] theorem fieldKK_wordXK (c : BitVec 4) (x : Reg) (kk : Byte) : fieldKK (wordXK c x kk) = kk := by
  unfold fieldKK wordXK
  apply BitVec.eq_of_getLsbD_eq; intro i hi
  interval_cases i <;> simp only [BitVec.getLsbD_extractLsb', BitVec.getLsbD_append] <;> rfl

@[simp] theorem fieldC_wordXY (c : BitVec 4) (x y : Reg) (n : Nibble) : fieldC (wordXY c x y n) = c := by
  unfold fieldC wordXY
  apply BitVec.eq_of_getLsbD_eq; intro i hi
  interval_cases i <;> simp only [BitVec.getLsbD_extractLsb', BitVec.getLsbD_append] <;> rfl

@[simp] theorem fieldX_wordXY (c : BitVec 4) (x y : Reg) (n : Nibble) : fieldX (wordXY c x y n) = x := by
  unfold fieldX wordXY
  apply BitVec.eq_of_getLsbD_eq; intro i hi
  interval_cases i <;> simp only [BitVec.getLsbD_extractLsb', BitVec.getLsbD_append] <;> rfl

@[simp] theorem fieldY_wordXY (c : BitVec 4) (x y : Reg) (n : Nibble) : fieldY (wordXY c x y n) = y := by
  unfold fieldY wordXY
  apply BitVec.eq_of_getLsbD_eq; intro i hi
  interval_cases i <;> simp only [BitVec.getLsbD_extractLsb', BitVec.getLsbD_append] <;> rfl

@[simp] theorem fieldN_wordXY (c : BitVec 4) (x y : Reg) (n : Nibble) : fieldN (wordXY c x y n) = n := by
  unfold fieldN wordXY
  apply BitVec.eq_of_getLsbD_eq; intro i hi
  interval_cases i <;> simp only [BitVec.getLsbD_extractLsb', BitVec.getLsbD_append] <;> rfl

/-! ### A word is its fields -/

theorem wordA_fields (w : Word) : wordA (fieldC w) (fieldNNN w) = w := by
  unfold fieldC fieldNNN wordA
  apply BitVec.eq_of_getLsbD_eq; intro i hi
  interval_cases i <;> simp only [BitVec.getLsbD_extractLsb', BitVec.getLsbD_append] <;> rfl

theorem wordXK_fields (w : Word) : wordXK (fieldC w) (fieldX w) (fieldKK w) = w := by
  unfold fieldC fieldX fieldKK wordXK
  apply BitVec.eq_of_getLsbD_eq; intro i hi
  interval_cases i <;> simp only [BitVec.getLsbD_extractLsb', BitVec.getLsbD_append] <;> rfl

theorem wordXY_fields (w : Word) : wordXY (fieldC w) (fieldX w) (fieldY w) (fieldN w) = w := by
  unfold fieldC fieldX fieldY fieldN wordXY
  apply BitVec.eq_of_getLsbD_eq; intro i hi
  interval_cases i <;> simp only [BitVec.getLsbD_extractLsb', BitVec.getLsbD_append] <;> rfl

/-- The two bytes of a word put together again (R44). -/
@[simp] theorem wordOfBytes_bytes (w : Word) : wordOfBytes (highByte w) (lowByte w) = w := by
  unfold wordOfBytes highByte lowByte
  apply BitVec.eq_of_getLsbD_eq; intro i hi
  interval_cases i <;> simp only [BitVec.getLsbD_extractLsb', BitVec.getLsbD_append] <;> rfl

/-- The byte at the lower address is the high one (R44). -/
@[simp] theorem highByte_wordOfBytes (hi lo : Byte) : highByte (wordOfBytes hi lo) = hi := by
  apply BitVec.eq_of_getLsbD_eq
  intro i h
  show ((hi ++ lo : BitVec (8 + 8)).extractLsb' 8 8).getLsbD i = _
  rw [BitVec.getLsbD_extractLsb', BitVec.getLsbD_append]
  simp [h]

/-- The byte at the higher address is the low one (R44). -/
@[simp] theorem lowByte_wordOfBytes (hi lo : Byte) : lowByte (wordOfBytes hi lo) = lo := by
  apply BitVec.eq_of_getLsbD_eq
  intro i h
  show ((hi ++ lo : BitVec (8 + 8)).extractLsb' 0 8).getLsbD i = _
  rw [BitVec.getLsbD_extractLsb', BitVec.getLsbD_append]
  simp [h]

/-! ### The decoder by class -/

/-- Outside class 0 the two full words do not occur, so the class alone decides (R64). -/
theorem decode_of_class_ne_zero (w : Word) (h : fieldC w ≠ 0) : decode w = decodeByClass w := by
  unfold decode
  rw [if_neg, if_neg]
  · rintro rfl; exact h (by decide)
  · rintro rfl; exact h (by decide)

/-- A table row of 16 bits gives the whole word. -/
theorem tableWord_16 (w : Word) : tableWord 16 w.toNat = w := by
  apply BitVec.eq_of_toNat_eq
  have := w.isLt
  simp [tableWord]; omega

end Sys2Proof
end

