-- ==== Sys2Proof/Laws/Memory.lean ====
section
/-! SUPPORT. The laws of memory (20_memory.md R43, R47): a read after a write, and the canonical form kept by every
operation. -/

namespace Sys2Proof.Machine

variable {p : Params}

/-- The canonical form of a list with a first cell, taken apart. -/
theorem Memory.wf_cell (k : Nat) (b : Byte) (m : Memory) :
    Memory.wf p ((k, b) :: m) = true ↔
      k < Config.memSize ∧ b ≠ initByte p k ∧ Memory.above k m = true ∧ Memory.wf p m = true := by
  simp [Memory.wf, and_assoc]

/-- Being above is inherited downward. -/
theorem Memory.above_of_lt {a k : Nat} (m : Memory) (h : a < k) (hk : m.above k = true) : m.above a = true := by
  cases m with
  | nil => rfl
  | cons c m => obtain ⟨j, b⟩ := c; simp [Memory.above] at *; omega

/-- An address below every cell of a canonical memory reads as the reset contents. -/
theorem Memory.read_of_above {a : Nat} (m : Memory) (hw : Memory.wf p m = true) (ha : m.above a = true) :
    Memory.read p m a = initByte p a := by
  induction m with
  | nil => rfl
  | cons c m ih =>
    obtain ⟨k, b⟩ := c
    obtain ⟨-, -, hk, hm⟩ := (Memory.wf_cell k b m).1 hw
    have hlt : a < k := by simpa [Memory.above] using ha
    simp [Memory.read, Nat.ne_of_lt hlt, ih hm (Memory.above_of_lt m hlt hk)]

/-- A cell put below a canonical memory reads back its byte. -/
theorem Memory.read_cons_same {a : Nat} (b : Byte) (m : Memory) (hw : Memory.wf p m = true) (ha : m.above a = true) :
    Memory.read p (Memory.cons p a b m) a = b := by
  unfold Memory.cons
  split
  · next h => rw [Memory.read_of_above m hw ha, h]
  · simp [Memory.read]

/-- A cell put in front leaves every other address alone. -/
theorem Memory.read_cons_of_ne {a a' : Nat} (b : Byte) (m : Memory) (h : a' ≠ a) :
    Memory.read p (Memory.cons p a b m) a' = Memory.read p m a' := by
  unfold Memory.cons
  split
  · rfl
  · simp [Memory.read, h]

/-- A byte written to a canonical memory reads back (R43, R47). -/
theorem Memory.read_write_same (m : Memory) (a : Nat) (b : Byte) (hw : Memory.wf p m = true) : Memory.read p (Memory.write p m a b) a = b := by
  induction m with
  | nil => exact Memory.read_cons_same b [] rfl rfl
  | cons c m ih =>
    obtain ⟨k, c⟩ := c
    obtain ⟨-, -, hk, hm⟩ := (Memory.wf_cell k c m).1 hw
    unfold Memory.write
    split
    · next h => exact Memory.read_cons_same b _ hw (by simpa [Memory.above] using h)
    · split
      · next h => subst h; exact Memory.read_cons_same b m hm hk
      · next h => simp [Memory.read, h, ih hm]

/-- A write leaves every other address alone (R47). -/
theorem Memory.read_write_of_ne (m : Memory) {a a' : Nat} (b : Byte) (h : a' ≠ a) :
    Memory.read p (Memory.write p m a b) a' = Memory.read p m a' := by
  induction m with
  | nil => exact Memory.read_cons_of_ne b [] h
  | cons c m ih =>
    obtain ⟨k, c⟩ := c
    unfold Memory.write
    split
    · exact Memory.read_cons_of_ne b _ h
    · split
      · next hk => subst hk; rw [Memory.read_cons_of_ne b m h]; simp [Memory.read, h]
      · simp [Memory.read, ih]

/-- A cell put in front of what lies above it keeps the canonical form. -/
theorem Memory.wf_cons {a : Nat} (b : Byte) (m : Memory) (hlt : a < Config.memSize) (hw : Memory.wf p m = true)
    (ha : m.above a = true) : Memory.wf p (Memory.cons p a b m) = true := by
  unfold Memory.cons
  split
  · exact hw
  · next h => exact (Memory.wf_cell a b m).2 ⟨hlt, h, ha, hw⟩

/-- A write at an address above `j` leaves the memory above `j`. -/
theorem Memory.above_write {j a : Nat} (b : Byte) (m : Memory) (hj : j < a) (hw : Memory.wf p m = true)
    (hm : m.above j = true) : (Memory.write p m a b).above j = true := by
  cases m with
  | nil => unfold Memory.write Memory.cons; split <;> simp [Memory.above, hj]
  | cons c m =>
    obtain ⟨k, c⟩ := c
    have hk : j < k := by simpa [Memory.above] using hm
    obtain ⟨-, -, hab, -⟩ := (Memory.wf_cell k c m).1 hw
    unfold Memory.write Memory.cons
    repeat' split
    all_goals first
      | simpa [Memory.above] using hj
      | simpa [Memory.above] using hk
      | exact Memory.above_of_lt m hk hab

/-- A write inside the 4096 bytes keeps the canonical form. -/
theorem Memory.wf_write (m : Memory) {a : Nat} (b : Byte) (hlt : a < Config.memSize) (hw : Memory.wf p m = true) :
    Memory.wf p (Memory.write p m a b) = true := by
  induction m with
  | nil => exact Memory.wf_cons b [] hlt rfl rfl
  | cons c m ih =>
    obtain ⟨k, c⟩ := c
    obtain ⟨hk, hc, hab, hm⟩ := (Memory.wf_cell k c m).1 hw
    unfold Memory.write
    split
    · next h => exact Memory.wf_cons b _ hlt hw (by simpa [Memory.above] using h)
    · split
      · next h => subst h; exact Memory.wf_cons b m hlt hm hab
      · exact (Memory.wf_cell k c _).2 ⟨hk, hc, Memory.above_write b m (by omega) hm hab, ih hm⟩

/-- A byte outside the written block reads as before. -/
theorem Memory.read_writeBytes_of_outside (bs : List Byte) (m : Memory) (base a : Nat)
    (h : a < base ∨ base + bs.length ≤ a) : Memory.read p (Memory.writeBytes p m base bs) a = Memory.read p m a := by
  induction bs generalizing m base with
  | nil => rfl
  | cons b bs ih =>
    simp only [List.length_cons] at h
    rw [Memory.writeBytes, ih (Memory.write p m base b) (base + 1) (by omega), Memory.read_write_of_ne m b (by omega)]

/-- A block written inside the 4096 bytes keeps the canonical form. -/
theorem Memory.wf_writeBytes (bs : List Byte) (m : Memory) (base : Nat) (hlt : base + bs.length ≤ Config.memSize)
    (hw : Memory.wf p m = true) : Memory.wf p (Memory.writeBytes p m base bs) = true := by
  induction bs generalizing m base with
  | nil => exact hw
  | cons b bs ih =>
    simp only [List.length_cons] at hlt
    exact ih (Memory.write p m base b) (base + 1) (by omega) (Memory.wf_write m b (by omega) hw)

/-- A byte inside the written block reads as the byte written there. -/
theorem Memory.read_writeBytes_inside (bs : List Byte) (m : Memory) (base j : Nat) (hj : j < bs.length)
    (hlt : base + bs.length ≤ Config.memSize) (hw : Memory.wf p m = true) :
    Memory.read p (Memory.writeBytes p m base bs) (base + j) = bs[j] := by
  induction bs generalizing m base j with
  | nil => simp at hj
  | cons b bs ih =>
    simp only [List.length_cons] at hlt hj
    have hw' := Memory.wf_write m b (a := base) (by omega) hw
    cases j with
    | zero =>
      show Memory.read p (Memory.writeBytes p (Memory.write p m base b) (base + 1) bs) base = b
      rw [Memory.read_writeBytes_of_outside bs (Memory.write p m base b) (base + 1) base (by omega),
        Memory.read_write_same m base b hw]
    | succ j =>
      rw [Memory.writeBytes, show base + (j + 1) = base + 1 + j by omega,
        ih (Memory.write p m base b) (base + 1) j (by omega) (by omega) hw', List.getElem_cons_succ]

/-- Reset memory is canonical: it lists nothing. -/
theorem reset_memory_wf (p : Params) : Memory.wf p (State.resetWith p).mem = true := rfl

/-- The font table (R41, R42). -/
theorem initByte_font (p : Params) (j : Nat) (h : j < 80) : initByte p (0x50 + j) = p.font[j] := by
  have hj : 0x50 + j - Config.fontBase = j := Nat.add_sub_cancel_left ..
  unfold initByte
  rw [dif_pos ⟨Nat.le_add_right .., Nat.add_lt_add_left h _⟩]
  simp only [hj]

/-- Outside the font table an unlisted address reads as `MEM_INIT` (R41). -/
theorem initByte_outside (p : Params) (a : Nat) (h : a < 0x50 ∨ 0xA0 ≤ a) : initByte p a = p.memInit := by
  unfold initByte
  rw [dif_neg]
  rintro ⟨h1, h2⟩
  have h1 : 0x50 ≤ a := h1
  have h2 : a < 0xA0 := h2
  omega

end Sys2Proof.Machine
end

