-- ==== Sys2Proof/Laws/State.lean ====
section
/-! SUPPORT. One lemma per field per update of the state, and reads of registers after updates. -/

namespace Sys2Proof.Machine

variable (s : State)

/-! ### `setV` -/

@[simp] theorem setV_v (x : Reg) (b : Byte) : (s.setV x b).v = s.v.set x.toNat b x.isLt := rfl
@[simp] theorem setV_i (x : Reg) (b : Byte) : (s.setV x b).i = s.i := rfl
@[simp] theorem setV_pc (x : Reg) (b : Byte) : (s.setV x b).pc = s.pc := rfl
@[simp] theorem setV_stack (x : Reg) (b : Byte) : (s.setV x b).stack = s.stack := rfl
@[simp] theorem setV_sp (x : Reg) (b : Byte) : (s.setV x b).sp = s.sp := rfl
@[simp] theorem setV_dt (x : Reg) (b : Byte) : (s.setV x b).dt = s.dt := rfl
@[simp] theorem setV_st (x : Reg) (b : Byte) : (s.setV x b).st = s.st := rfl
@[simp] theorem setV_cyc (x : Reg) (b : Byte) : (s.setV x b).cyc = s.cyc := rfl
@[simp] theorem setV_fault (x : Reg) (b : Byte) : (s.setV x b).fault = s.fault := rfl
@[simp] theorem setV_mem (x : Reg) (b : Byte) : (s.setV x b).mem = s.mem := rfl
@[simp] theorem setV_fb (x : Reg) (b : Byte) : (s.setV x b).fb = s.fb := rfl
@[simp] theorem setV_loadOpen (x : Reg) (b : Byte) : (s.setV x b).loadOpen = s.loadOpen := rfl
@[simp] theorem setV_env (x : Reg) (b : Byte) : (s.setV x b).env = s.env := rfl
@[simp] theorem setV_envCount (x : Reg) (b : Byte) : (s.setV x b).envCount = s.envCount := rfl
@[simp] theorem setV_params (x : Reg) (b : Byte) : (s.setV x b).params = s.params := rfl
@[simp] theorem setV_byteAt (x : Reg) (b : Byte) (a : Nat) : (s.setV x b).byteAt a = s.byteAt a := rfl
@[simp] theorem setV_entry (x : Reg) (b : Byte) (k : Nat) : (s.setV x b).entry k = s.entry k := rfl

/-! ### `setI` -/

@[simp] theorem setI_v (w : Word) : (s.setI w).v = s.v := rfl
@[simp] theorem setI_i (w : Word) : (s.setI w).i = w := rfl
@[simp] theorem setI_pc (w : Word) : (s.setI w).pc = s.pc := rfl
@[simp] theorem setI_stack (w : Word) : (s.setI w).stack = s.stack := rfl
@[simp] theorem setI_sp (w : Word) : (s.setI w).sp = s.sp := rfl
@[simp] theorem setI_dt (w : Word) : (s.setI w).dt = s.dt := rfl
@[simp] theorem setI_st (w : Word) : (s.setI w).st = s.st := rfl
@[simp] theorem setI_cyc (w : Word) : (s.setI w).cyc = s.cyc := rfl
@[simp] theorem setI_fault (w : Word) : (s.setI w).fault = s.fault := rfl
@[simp] theorem setI_mem (w : Word) : (s.setI w).mem = s.mem := rfl
@[simp] theorem setI_fb (w : Word) : (s.setI w).fb = s.fb := rfl
@[simp] theorem setI_loadOpen (w : Word) : (s.setI w).loadOpen = s.loadOpen := rfl
@[simp] theorem setI_env (w : Word) : (s.setI w).env = s.env := rfl
@[simp] theorem setI_envCount (w : Word) : (s.setI w).envCount = s.envCount := rfl
@[simp] theorem setI_params (w : Word) : (s.setI w).params = s.params := rfl
@[simp] theorem setI_byteAt (w : Word) (a : Nat) : (s.setI w).byteAt a = s.byteAt a := rfl
@[simp] theorem setI_entry (w : Word) (k : Nat) : (s.setI w).entry k = s.entry k := rfl
@[simp] theorem setI_getV (w : Word) (r : Reg) : (s.setI w).getV r = s.getV r := rfl

/-! ### `setPc` -/

@[simp] theorem setPc_v (w : Word) : (s.setPc w).v = s.v := rfl
@[simp] theorem setPc_i (w : Word) : (s.setPc w).i = s.i := rfl
@[simp] theorem setPc_pc (w : Word) : (s.setPc w).pc = w := rfl
@[simp] theorem setPc_stack (w : Word) : (s.setPc w).stack = s.stack := rfl
@[simp] theorem setPc_sp (w : Word) : (s.setPc w).sp = s.sp := rfl
@[simp] theorem setPc_dt (w : Word) : (s.setPc w).dt = s.dt := rfl
@[simp] theorem setPc_st (w : Word) : (s.setPc w).st = s.st := rfl
@[simp] theorem setPc_cyc (w : Word) : (s.setPc w).cyc = s.cyc := rfl
@[simp] theorem setPc_fault (w : Word) : (s.setPc w).fault = s.fault := rfl
@[simp] theorem setPc_mem (w : Word) : (s.setPc w).mem = s.mem := rfl
@[simp] theorem setPc_fb (w : Word) : (s.setPc w).fb = s.fb := rfl
@[simp] theorem setPc_loadOpen (w : Word) : (s.setPc w).loadOpen = s.loadOpen := rfl
@[simp] theorem setPc_env (w : Word) : (s.setPc w).env = s.env := rfl
@[simp] theorem setPc_envCount (w : Word) : (s.setPc w).envCount = s.envCount := rfl
@[simp] theorem setPc_params (w : Word) : (s.setPc w).params = s.params := rfl
@[simp] theorem setPc_byteAt (w : Word) (a : Nat) : (s.setPc w).byteAt a = s.byteAt a := rfl
@[simp] theorem setPc_entry (w : Word) (k : Nat) : (s.setPc w).entry k = s.entry k := rfl
@[simp] theorem setPc_getV (w : Word) (r : Reg) : (s.setPc w).getV r = s.getV r := rfl

/-! ### `setDT` -/

@[simp] theorem setDT_v (b : Byte) : (s.setDT b).v = s.v := rfl
@[simp] theorem setDT_i (b : Byte) : (s.setDT b).i = s.i := rfl
@[simp] theorem setDT_pc (b : Byte) : (s.setDT b).pc = s.pc := rfl
@[simp] theorem setDT_stack (b : Byte) : (s.setDT b).stack = s.stack := rfl
@[simp] theorem setDT_sp (b : Byte) : (s.setDT b).sp = s.sp := rfl
@[simp] theorem setDT_dt (b : Byte) : (s.setDT b).dt = b := rfl
@[simp] theorem setDT_st (b : Byte) : (s.setDT b).st = s.st := rfl
@[simp] theorem setDT_cyc (b : Byte) : (s.setDT b).cyc = s.cyc := rfl
@[simp] theorem setDT_fault (b : Byte) : (s.setDT b).fault = s.fault := rfl
@[simp] theorem setDT_mem (b : Byte) : (s.setDT b).mem = s.mem := rfl
@[simp] theorem setDT_fb (b : Byte) : (s.setDT b).fb = s.fb := rfl
@[simp] theorem setDT_loadOpen (b : Byte) : (s.setDT b).loadOpen = s.loadOpen := rfl
@[simp] theorem setDT_env (b : Byte) : (s.setDT b).env = s.env := rfl
@[simp] theorem setDT_envCount (b : Byte) : (s.setDT b).envCount = s.envCount := rfl
@[simp] theorem setDT_params (b : Byte) : (s.setDT b).params = s.params := rfl
@[simp] theorem setDT_byteAt (b : Byte) (a : Nat) : (s.setDT b).byteAt a = s.byteAt a := rfl
@[simp] theorem setDT_entry (b : Byte) (k : Nat) : (s.setDT b).entry k = s.entry k := rfl
@[simp] theorem setDT_getV (b : Byte) (r : Reg) : (s.setDT b).getV r = s.getV r := rfl

/-! ### `setST` -/

@[simp] theorem setST_v (b : Byte) : (s.setST b).v = s.v := rfl
@[simp] theorem setST_i (b : Byte) : (s.setST b).i = s.i := rfl
@[simp] theorem setST_pc (b : Byte) : (s.setST b).pc = s.pc := rfl
@[simp] theorem setST_stack (b : Byte) : (s.setST b).stack = s.stack := rfl
@[simp] theorem setST_sp (b : Byte) : (s.setST b).sp = s.sp := rfl
@[simp] theorem setST_dt (b : Byte) : (s.setST b).dt = s.dt := rfl
@[simp] theorem setST_st (b : Byte) : (s.setST b).st = b := rfl
@[simp] theorem setST_cyc (b : Byte) : (s.setST b).cyc = s.cyc := rfl
@[simp] theorem setST_fault (b : Byte) : (s.setST b).fault = s.fault := rfl
@[simp] theorem setST_mem (b : Byte) : (s.setST b).mem = s.mem := rfl
@[simp] theorem setST_fb (b : Byte) : (s.setST b).fb = s.fb := rfl
@[simp] theorem setST_loadOpen (b : Byte) : (s.setST b).loadOpen = s.loadOpen := rfl
@[simp] theorem setST_env (b : Byte) : (s.setST b).env = s.env := rfl
@[simp] theorem setST_envCount (b : Byte) : (s.setST b).envCount = s.envCount := rfl
@[simp] theorem setST_params (b : Byte) : (s.setST b).params = s.params := rfl
@[simp] theorem setST_byteAt (b : Byte) (a : Nat) : (s.setST b).byteAt a = s.byteAt a := rfl
@[simp] theorem setST_entry (b : Byte) (k : Nat) : (s.setST b).entry k = s.entry k := rfl
@[simp] theorem setST_getV (b : Byte) (r : Reg) : (s.setST b).getV r = s.getV r := rfl

/-! ### `setMem` -/

@[simp] theorem setMem_v (m : Memory) : (s.setMem m).v = s.v := rfl
@[simp] theorem setMem_i (m : Memory) : (s.setMem m).i = s.i := rfl
@[simp] theorem setMem_pc (m : Memory) : (s.setMem m).pc = s.pc := rfl
@[simp] theorem setMem_stack (m : Memory) : (s.setMem m).stack = s.stack := rfl
@[simp] theorem setMem_sp (m : Memory) : (s.setMem m).sp = s.sp := rfl
@[simp] theorem setMem_dt (m : Memory) : (s.setMem m).dt = s.dt := rfl
@[simp] theorem setMem_st (m : Memory) : (s.setMem m).st = s.st := rfl
@[simp] theorem setMem_cyc (m : Memory) : (s.setMem m).cyc = s.cyc := rfl
@[simp] theorem setMem_fault (m : Memory) : (s.setMem m).fault = s.fault := rfl
@[simp] theorem setMem_mem (m : Memory) : (s.setMem m).mem = m := rfl
@[simp] theorem setMem_fb (m : Memory) : (s.setMem m).fb = s.fb := rfl
@[simp] theorem setMem_loadOpen (m : Memory) : (s.setMem m).loadOpen = s.loadOpen := rfl
@[simp] theorem setMem_env (m : Memory) : (s.setMem m).env = s.env := rfl
@[simp] theorem setMem_envCount (m : Memory) : (s.setMem m).envCount = s.envCount := rfl
@[simp] theorem setMem_params (m : Memory) : (s.setMem m).params = s.params := rfl
@[simp] theorem setMem_entry (m : Memory) (k : Nat) : (s.setMem m).entry k = s.entry k := rfl
@[simp] theorem setMem_getV (m : Memory) (r : Reg) : (s.setMem m).getV r = s.getV r := rfl

/-! ### `store` -/

@[simp] theorem store_v (a : Nat) (bs : List Byte) : (s.store a bs).v = s.v := rfl
@[simp] theorem store_i (a : Nat) (bs : List Byte) : (s.store a bs).i = s.i := rfl
@[simp] theorem store_pc (a : Nat) (bs : List Byte) : (s.store a bs).pc = s.pc := rfl
@[simp] theorem store_stack (a : Nat) (bs : List Byte) : (s.store a bs).stack = s.stack := rfl
@[simp] theorem store_sp (a : Nat) (bs : List Byte) : (s.store a bs).sp = s.sp := rfl
@[simp] theorem store_dt (a : Nat) (bs : List Byte) : (s.store a bs).dt = s.dt := rfl
@[simp] theorem store_st (a : Nat) (bs : List Byte) : (s.store a bs).st = s.st := rfl
@[simp] theorem store_cyc (a : Nat) (bs : List Byte) : (s.store a bs).cyc = s.cyc := rfl
@[simp] theorem store_fault (a : Nat) (bs : List Byte) : (s.store a bs).fault = s.fault := rfl
@[simp] theorem store_fb (a : Nat) (bs : List Byte) : (s.store a bs).fb = s.fb := rfl
@[simp] theorem store_loadOpen (a : Nat) (bs : List Byte) : (s.store a bs).loadOpen = s.loadOpen := rfl
@[simp] theorem store_env (a : Nat) (bs : List Byte) : (s.store a bs).env = s.env := rfl
@[simp] theorem store_envCount (a : Nat) (bs : List Byte) : (s.store a bs).envCount = s.envCount := rfl
@[simp] theorem store_params (a : Nat) (bs : List Byte) : (s.store a bs).params = s.params := rfl
@[simp] theorem store_mem (a : Nat) (bs : List Byte) : (s.store a bs).mem = Memory.writeBytes s.params s.mem a bs := rfl
@[simp] theorem store_getV (a : Nat) (bs : List Byte) (r : Reg) : (s.store a bs).getV r = s.getV r := rfl
@[simp] theorem store_entry (a : Nat) (bs : List Byte) (k : Nat) : (s.store a bs).entry k = s.entry k := rfl

/-! ### `setFb` -/

@[simp] theorem setFb_v (f : Framebuffer) : (s.setFb f).v = s.v := rfl
@[simp] theorem setFb_i (f : Framebuffer) : (s.setFb f).i = s.i := rfl
@[simp] theorem setFb_pc (f : Framebuffer) : (s.setFb f).pc = s.pc := rfl
@[simp] theorem setFb_stack (f : Framebuffer) : (s.setFb f).stack = s.stack := rfl
@[simp] theorem setFb_sp (f : Framebuffer) : (s.setFb f).sp = s.sp := rfl
@[simp] theorem setFb_dt (f : Framebuffer) : (s.setFb f).dt = s.dt := rfl
@[simp] theorem setFb_st (f : Framebuffer) : (s.setFb f).st = s.st := rfl
@[simp] theorem setFb_cyc (f : Framebuffer) : (s.setFb f).cyc = s.cyc := rfl
@[simp] theorem setFb_fault (f : Framebuffer) : (s.setFb f).fault = s.fault := rfl
@[simp] theorem setFb_mem (f : Framebuffer) : (s.setFb f).mem = s.mem := rfl
@[simp] theorem setFb_fb (f : Framebuffer) : (s.setFb f).fb = f := rfl
@[simp] theorem setFb_loadOpen (f : Framebuffer) : (s.setFb f).loadOpen = s.loadOpen := rfl
@[simp] theorem setFb_env (f : Framebuffer) : (s.setFb f).env = s.env := rfl
@[simp] theorem setFb_envCount (f : Framebuffer) : (s.setFb f).envCount = s.envCount := rfl
@[simp] theorem setFb_params (f : Framebuffer) : (s.setFb f).params = s.params := rfl
@[simp] theorem setFb_byteAt (f : Framebuffer) (a : Nat) : (s.setFb f).byteAt a = s.byteAt a := rfl
@[simp] theorem setFb_entry (f : Framebuffer) (k : Nat) : (s.setFb f).entry k = s.entry k := rfl
@[simp] theorem setFb_getV (f : Framebuffer) (r : Reg) : (s.setFb f).getV r = s.getV r := rfl

/-! ### `takeFault` -/

@[simp] theorem takeFault_v (f : Fault) : (s.takeFault f).v = s.v := rfl
@[simp] theorem takeFault_i (f : Fault) : (s.takeFault f).i = s.i := rfl
@[simp] theorem takeFault_pc (f : Fault) : (s.takeFault f).pc = s.pc := rfl
@[simp] theorem takeFault_stack (f : Fault) : (s.takeFault f).stack = s.stack := rfl
@[simp] theorem takeFault_sp (f : Fault) : (s.takeFault f).sp = s.sp := rfl
@[simp] theorem takeFault_dt (f : Fault) : (s.takeFault f).dt = s.dt := rfl
@[simp] theorem takeFault_st (f : Fault) : (s.takeFault f).st = s.st := rfl
@[simp] theorem takeFault_cyc (f : Fault) : (s.takeFault f).cyc = s.cyc := rfl
@[simp] theorem takeFault_fault (f : Fault) : (s.takeFault f).fault = some f := rfl
@[simp] theorem takeFault_mem (f : Fault) : (s.takeFault f).mem = s.mem := rfl
@[simp] theorem takeFault_fb (f : Fault) : (s.takeFault f).fb = s.fb := rfl
@[simp] theorem takeFault_loadOpen (f : Fault) : (s.takeFault f).loadOpen = s.loadOpen := rfl
@[simp] theorem takeFault_env (f : Fault) : (s.takeFault f).env = s.env := rfl
@[simp] theorem takeFault_envCount (f : Fault) : (s.takeFault f).envCount = s.envCount := rfl
@[simp] theorem takeFault_params (f : Fault) : (s.takeFault f).params = s.params := rfl
@[simp] theorem takeFault_byteAt (f : Fault) (a : Nat) : (s.takeFault f).byteAt a = s.byteAt a := rfl
@[simp] theorem takeFault_entry (f : Fault) (k : Nat) : (s.takeFault f).entry k = s.entry k := rfl
@[simp] theorem takeFault_getV (f : Fault) (r : Reg) : (s.takeFault f).getV r = s.getV r := rfl

/-! ### `setFlag` -/

@[simp] theorem setFlag_v (f : Bool) : (s.setFlag f).v = s.v.set regVF.toNat (flagByte f) regVF.isLt := rfl
@[simp] theorem setFlag_i (f : Bool) : (s.setFlag f).i = s.i := rfl
@[simp] theorem setFlag_pc (f : Bool) : (s.setFlag f).pc = s.pc := rfl
@[simp] theorem setFlag_stack (f : Bool) : (s.setFlag f).stack = s.stack := rfl
@[simp] theorem setFlag_sp (f : Bool) : (s.setFlag f).sp = s.sp := rfl
@[simp] theorem setFlag_dt (f : Bool) : (s.setFlag f).dt = s.dt := rfl
@[simp] theorem setFlag_st (f : Bool) : (s.setFlag f).st = s.st := rfl
@[simp] theorem setFlag_cyc (f : Bool) : (s.setFlag f).cyc = s.cyc := rfl
@[simp] theorem setFlag_fault (f : Bool) : (s.setFlag f).fault = s.fault := rfl
@[simp] theorem setFlag_mem (f : Bool) : (s.setFlag f).mem = s.mem := rfl
@[simp] theorem setFlag_fb (f : Bool) : (s.setFlag f).fb = s.fb := rfl
@[simp] theorem setFlag_loadOpen (f : Bool) : (s.setFlag f).loadOpen = s.loadOpen := rfl
@[simp] theorem setFlag_env (f : Bool) : (s.setFlag f).env = s.env := rfl
@[simp] theorem setFlag_envCount (f : Bool) : (s.setFlag f).envCount = s.envCount := rfl
@[simp] theorem setFlag_params (f : Bool) : (s.setFlag f).params = s.params := rfl
@[simp] theorem setFlag_byteAt (f : Bool) (a : Nat) : (s.setFlag f).byteAt a = s.byteAt a := rfl
@[simp] theorem setFlag_entry (f : Bool) (k : Nat) : (s.setFlag f).entry k = s.entry k := rfl

/-! ### `advance` -/

@[simp] theorem advance_v : s.advance.v = s.v := rfl
@[simp] theorem advance_i : s.advance.i = s.i := rfl
@[simp] theorem advance_pc : s.advance.pc = s.pc + 2 := rfl
@[simp] theorem advance_stack : s.advance.stack = s.stack := rfl
@[simp] theorem advance_sp : s.advance.sp = s.sp := rfl
@[simp] theorem advance_dt : s.advance.dt = tickTimer s.cyc s.dt := rfl
@[simp] theorem advance_st : s.advance.st = tickTimer s.cyc s.st := rfl
@[simp] theorem advance_cyc : s.advance.cyc = nextCyc s.cyc := rfl
@[simp] theorem advance_fault : s.advance.fault = s.fault := rfl
@[simp] theorem advance_mem : s.advance.mem = s.mem := rfl
@[simp] theorem advance_fb : s.advance.fb = s.fb := rfl
@[simp] theorem advance_loadOpen : s.advance.loadOpen = false := rfl
@[simp] theorem advance_env : s.advance.env = s.env.tail := rfl
@[simp] theorem advance_envCount : s.advance.envCount = s.envCount + 1 := rfl
@[simp] theorem advance_params : s.advance.params = s.params := rfl
@[simp] theorem advance_byteAt (a : Nat) : s.advance.byteAt a = s.byteAt a := rfl
@[simp] theorem advance_entry (k : Nat) : s.advance.entry k = s.entry k := rfl
@[simp] theorem advance_getV (r : Reg) : s.advance.getV r = s.getV r := rfl

/-! ### Registers -/

/-- A register reads back the byte written to it (R10). -/
@[simp] theorem getV_setV_same (x : Reg) (b : Byte) : (s.setV x b).getV x = b := by
  simp [State.getV, State.setV]

/-- Writing one register leaves the others alone (R10). -/
theorem getV_setV_of_ne (x r : Reg) (b : Byte) (h : r ≠ x) : (s.setV x b).getV r = s.getV r := by
  have hn : x.toNat ≠ r.toNat := fun e => h (BitVec.eq_of_toNat_eq e.symm)
  simp [State.getV, State.setV, hn]

/-- A register after a write, in one equation. -/
theorem getV_setV (x r : Reg) (b : Byte) : (s.setV x b).getV r = if r = x then b else s.getV r := by
  by_cases h : r = x
  · subst h; simp
  · simp [getV_setV_of_ne, h]

/-- `VF` after a flag is written (R11). -/
@[simp] theorem getV_setFlag_VF (f : Bool) : (s.setFlag f).getV regVF = flagByte f := by simp [State.setFlag]

/-- Every other register after a flag is written. -/
theorem getV_setFlag_of_ne (r : Reg) (f : Bool) (h : r ≠ regVF) : (s.setFlag f).getV r = s.getV r := by
  simp [State.setFlag, getV_setV_of_ne, h]

end Sys2Proof.Machine
end

