-- ==== Sys2Proof/Laws/Ops.lean ====
section
/-! SUPPORT. One spec lemma per shared operation: what it answers, and what it leaves alone. -/

namespace Sys2Proof.Machine

variable (s : State)

/-! ### Writing a result and a flag: only general registers change -/

@[simp] theorem writeResult_i (x : Reg) (rf : Byte × Option Bool) : (s.writeResult x rf).i = s.i := by
  unfold State.writeResult; split <;> rfl
@[simp] theorem writeResult_pc (x : Reg) (rf : Byte × Option Bool) : (s.writeResult x rf).pc = s.pc := by
  unfold State.writeResult; split <;> rfl
@[simp] theorem writeResult_stack (x : Reg) (rf : Byte × Option Bool) : (s.writeResult x rf).stack = s.stack := by
  unfold State.writeResult; split <;> rfl
@[simp] theorem writeResult_sp (x : Reg) (rf : Byte × Option Bool) : (s.writeResult x rf).sp = s.sp := by
  unfold State.writeResult; split <;> rfl
@[simp] theorem writeResult_dt (x : Reg) (rf : Byte × Option Bool) : (s.writeResult x rf).dt = s.dt := by
  unfold State.writeResult; split <;> rfl
@[simp] theorem writeResult_st (x : Reg) (rf : Byte × Option Bool) : (s.writeResult x rf).st = s.st := by
  unfold State.writeResult; split <;> rfl
@[simp] theorem writeResult_cyc (x : Reg) (rf : Byte × Option Bool) : (s.writeResult x rf).cyc = s.cyc := by
  unfold State.writeResult; split <;> rfl
@[simp] theorem writeResult_fault (x : Reg) (rf : Byte × Option Bool) : (s.writeResult x rf).fault = s.fault := by
  unfold State.writeResult; split <;> rfl
@[simp] theorem writeResult_mem (x : Reg) (rf : Byte × Option Bool) : (s.writeResult x rf).mem = s.mem := by
  unfold State.writeResult; split <;> rfl
@[simp] theorem writeResult_fb (x : Reg) (rf : Byte × Option Bool) : (s.writeResult x rf).fb = s.fb := by
  unfold State.writeResult; split <;> rfl
@[simp] theorem writeResult_loadOpen (x : Reg) (rf : Byte × Option Bool) : (s.writeResult x rf).loadOpen = s.loadOpen := by
  unfold State.writeResult; split <;> rfl
@[simp] theorem writeResult_env (x : Reg) (rf : Byte × Option Bool) : (s.writeResult x rf).env = s.env := by
  unfold State.writeResult; split <;> rfl
@[simp] theorem writeResult_envCount (x : Reg) (rf : Byte × Option Bool) : (s.writeResult x rf).envCount = s.envCount := by
  unfold State.writeResult; split <;> rfl
@[simp] theorem writeResult_params (x : Reg) (rf : Byte × Option Bool) : (s.writeResult x rf).params = s.params := by
  unfold State.writeResult; split <;> rfl
@[simp] theorem writeResult_byteAt (x : Reg) (rf : Byte × Option Bool) (a : Nat) : (s.writeResult x rf).byteAt a = s.byteAt a := by
  simp [State.byteAt]
@[simp] theorem writeResult_entry (x : Reg) (rf : Byte × Option Bool) (k : Nat) : (s.writeResult x rf).entry k = s.entry k := by
  simp [State.entry]

@[simp] theorem aluInto_i (op : AluOp) (x : Reg) (b : Byte) : (s.aluInto op x b).i = s.i := by
  simp [State.aluInto]
@[simp] theorem aluInto_pc (op : AluOp) (x : Reg) (b : Byte) : (s.aluInto op x b).pc = s.pc := by
  simp [State.aluInto]
@[simp] theorem aluInto_stack (op : AluOp) (x : Reg) (b : Byte) : (s.aluInto op x b).stack = s.stack := by
  simp [State.aluInto]
@[simp] theorem aluInto_sp (op : AluOp) (x : Reg) (b : Byte) : (s.aluInto op x b).sp = s.sp := by
  simp [State.aluInto]
@[simp] theorem aluInto_dt (op : AluOp) (x : Reg) (b : Byte) : (s.aluInto op x b).dt = s.dt := by
  simp [State.aluInto]
@[simp] theorem aluInto_st (op : AluOp) (x : Reg) (b : Byte) : (s.aluInto op x b).st = s.st := by
  simp [State.aluInto]
@[simp] theorem aluInto_cyc (op : AluOp) (x : Reg) (b : Byte) : (s.aluInto op x b).cyc = s.cyc := by
  simp [State.aluInto]
@[simp] theorem aluInto_fault (op : AluOp) (x : Reg) (b : Byte) : (s.aluInto op x b).fault = s.fault := by
  simp [State.aluInto]
@[simp] theorem aluInto_mem (op : AluOp) (x : Reg) (b : Byte) : (s.aluInto op x b).mem = s.mem := by
  simp [State.aluInto]
@[simp] theorem aluInto_fb (op : AluOp) (x : Reg) (b : Byte) : (s.aluInto op x b).fb = s.fb := by
  simp [State.aluInto]
@[simp] theorem aluInto_loadOpen (op : AluOp) (x : Reg) (b : Byte) : (s.aluInto op x b).loadOpen = s.loadOpen := by
  simp [State.aluInto]
@[simp] theorem aluInto_env (op : AluOp) (x : Reg) (b : Byte) : (s.aluInto op x b).env = s.env := by
  simp [State.aluInto]
@[simp] theorem aluInto_envCount (op : AluOp) (x : Reg) (b : Byte) : (s.aluInto op x b).envCount = s.envCount := by
  simp [State.aluInto]
@[simp] theorem aluInto_params (op : AluOp) (x : Reg) (b : Byte) : (s.aluInto op x b).params = s.params := by
  simp [State.aluInto]
@[simp] theorem aluInto_byteAt (op : AluOp) (x : Reg) (b : Byte) (a : Nat) : (s.aluInto op x b).byteAt a = s.byteAt a := by
  simp [State.byteAt]
@[simp] theorem aluInto_entry (op : AluOp) (x : Reg) (b : Byte) (k : Nat) : (s.aluInto op x b).entry k = s.entry k := by
  simp [State.entry]

@[simp] theorem addToIndex_pc (strict : Bool) (x : Reg) : (s.addToIndex strict x).pc = s.pc := by
  rfl
@[simp] theorem addToIndex_stack (strict : Bool) (x : Reg) : (s.addToIndex strict x).stack = s.stack := by
  rfl
@[simp] theorem addToIndex_sp (strict : Bool) (x : Reg) : (s.addToIndex strict x).sp = s.sp := by
  rfl
@[simp] theorem addToIndex_dt (strict : Bool) (x : Reg) : (s.addToIndex strict x).dt = s.dt := by
  rfl
@[simp] theorem addToIndex_st (strict : Bool) (x : Reg) : (s.addToIndex strict x).st = s.st := by
  rfl
@[simp] theorem addToIndex_cyc (strict : Bool) (x : Reg) : (s.addToIndex strict x).cyc = s.cyc := by
  rfl
@[simp] theorem addToIndex_fault (strict : Bool) (x : Reg) : (s.addToIndex strict x).fault = s.fault := by
  rfl
@[simp] theorem addToIndex_mem (strict : Bool) (x : Reg) : (s.addToIndex strict x).mem = s.mem := by
  rfl
@[simp] theorem addToIndex_fb (strict : Bool) (x : Reg) : (s.addToIndex strict x).fb = s.fb := by
  rfl
@[simp] theorem addToIndex_loadOpen (strict : Bool) (x : Reg) : (s.addToIndex strict x).loadOpen = s.loadOpen := by
  rfl
@[simp] theorem addToIndex_env (strict : Bool) (x : Reg) : (s.addToIndex strict x).env = s.env := by
  rfl
@[simp] theorem addToIndex_envCount (strict : Bool) (x : Reg) : (s.addToIndex strict x).envCount = s.envCount := by
  rfl
@[simp] theorem addToIndex_params (strict : Bool) (x : Reg) : (s.addToIndex strict x).params = s.params := by
  rfl
@[simp] theorem addToIndex_byteAt (strict : Bool) (x : Reg) (a : Nat) : (s.addToIndex strict x).byteAt a = s.byteAt a := by
  simp [State.byteAt]
@[simp] theorem addToIndex_entry (strict : Bool) (x : Reg) (k : Nat) : (s.addToIndex strict x).entry k = s.entry k := by
  simp [State.entry]

@[simp] theorem skipIf_i (c : Bool) : (s.skipIf c).i = s.i := by
  unfold State.skipIf; split <;> rfl
@[simp] theorem skipIf_stack (c : Bool) : (s.skipIf c).stack = s.stack := by
  unfold State.skipIf; split <;> rfl
@[simp] theorem skipIf_sp (c : Bool) : (s.skipIf c).sp = s.sp := by
  unfold State.skipIf; split <;> rfl
@[simp] theorem skipIf_dt (c : Bool) : (s.skipIf c).dt = s.dt := by
  unfold State.skipIf; split <;> rfl
@[simp] theorem skipIf_st (c : Bool) : (s.skipIf c).st = s.st := by
  unfold State.skipIf; split <;> rfl
@[simp] theorem skipIf_cyc (c : Bool) : (s.skipIf c).cyc = s.cyc := by
  unfold State.skipIf; split <;> rfl
@[simp] theorem skipIf_fault (c : Bool) : (s.skipIf c).fault = s.fault := by
  unfold State.skipIf; split <;> rfl
@[simp] theorem skipIf_mem (c : Bool) : (s.skipIf c).mem = s.mem := by
  unfold State.skipIf; split <;> rfl
@[simp] theorem skipIf_fb (c : Bool) : (s.skipIf c).fb = s.fb := by
  unfold State.skipIf; split <;> rfl
@[simp] theorem skipIf_loadOpen (c : Bool) : (s.skipIf c).loadOpen = s.loadOpen := by
  unfold State.skipIf; split <;> rfl
@[simp] theorem skipIf_env (c : Bool) : (s.skipIf c).env = s.env := by
  unfold State.skipIf; split <;> rfl
@[simp] theorem skipIf_envCount (c : Bool) : (s.skipIf c).envCount = s.envCount := by
  unfold State.skipIf; split <;> rfl
@[simp] theorem skipIf_params (c : Bool) : (s.skipIf c).params = s.params := by
  unfold State.skipIf; split <;> rfl
@[simp] theorem skipIf_byteAt (c : Bool) (a : Nat) : (s.skipIf c).byteAt a = s.byteAt a := by
  simp [State.byteAt]
@[simp] theorem skipIf_entry (c : Bool) (k : Nat) : (s.skipIf c).entry k = s.entry k := by
  simp [State.entry]

@[simp] theorem afterKeyWait_i (x : Reg) (k : Option Byte) : (s.afterKeyWait x k).i = s.i := by
  unfold State.afterKeyWait; split <;> rfl
@[simp] theorem afterKeyWait_stack (x : Reg) (k : Option Byte) : (s.afterKeyWait x k).stack = s.stack := by
  unfold State.afterKeyWait; split <;> rfl
@[simp] theorem afterKeyWait_sp (x : Reg) (k : Option Byte) : (s.afterKeyWait x k).sp = s.sp := by
  unfold State.afterKeyWait; split <;> rfl
@[simp] theorem afterKeyWait_dt (x : Reg) (k : Option Byte) : (s.afterKeyWait x k).dt = s.dt := by
  unfold State.afterKeyWait; split <;> rfl
@[simp] theorem afterKeyWait_st (x : Reg) (k : Option Byte) : (s.afterKeyWait x k).st = s.st := by
  unfold State.afterKeyWait; split <;> rfl
@[simp] theorem afterKeyWait_cyc (x : Reg) (k : Option Byte) : (s.afterKeyWait x k).cyc = s.cyc := by
  unfold State.afterKeyWait; split <;> rfl
@[simp] theorem afterKeyWait_fault (x : Reg) (k : Option Byte) : (s.afterKeyWait x k).fault = s.fault := by
  unfold State.afterKeyWait; split <;> rfl
@[simp] theorem afterKeyWait_mem (x : Reg) (k : Option Byte) : (s.afterKeyWait x k).mem = s.mem := by
  unfold State.afterKeyWait; split <;> rfl
@[simp] theorem afterKeyWait_fb (x : Reg) (k : Option Byte) : (s.afterKeyWait x k).fb = s.fb := by
  unfold State.afterKeyWait; split <;> rfl
@[simp] theorem afterKeyWait_loadOpen (x : Reg) (k : Option Byte) : (s.afterKeyWait x k).loadOpen = s.loadOpen := by
  unfold State.afterKeyWait; split <;> rfl
@[simp] theorem afterKeyWait_env (x : Reg) (k : Option Byte) : (s.afterKeyWait x k).env = s.env := by
  unfold State.afterKeyWait; split <;> rfl
@[simp] theorem afterKeyWait_envCount (x : Reg) (k : Option Byte) : (s.afterKeyWait x k).envCount = s.envCount := by
  unfold State.afterKeyWait; split <;> rfl
@[simp] theorem afterKeyWait_params (x : Reg) (k : Option Byte) : (s.afterKeyWait x k).params = s.params := by
  unfold State.afterKeyWait; split <;> rfl
@[simp] theorem afterKeyWait_byteAt (x : Reg) (k : Option Byte) (a : Nat) : (s.afterKeyWait x k).byteAt a = s.byteAt a := by
  simp [State.byteAt]
@[simp] theorem afterKeyWait_entry (x : Reg) (k : Option Byte) (j : Nat) : (s.afterKeyWait x k).entry j = s.entry j := by
  simp [State.entry]

@[simp] theorem loadRegs_i (base count : Nat) : (s.loadRegs base count).i = s.i := by
  induction count with
  | zero => rfl
  | succ n ih => simpa [State.loadRegs] using ih
@[simp] theorem loadRegs_pc (base count : Nat) : (s.loadRegs base count).pc = s.pc := by
  induction count with
  | zero => rfl
  | succ n ih => simpa [State.loadRegs] using ih
@[simp] theorem loadRegs_stack (base count : Nat) : (s.loadRegs base count).stack = s.stack := by
  induction count with
  | zero => rfl
  | succ n ih => simpa [State.loadRegs] using ih
@[simp] theorem loadRegs_sp (base count : Nat) : (s.loadRegs base count).sp = s.sp := by
  induction count with
  | zero => rfl
  | succ n ih => simpa [State.loadRegs] using ih
@[simp] theorem loadRegs_dt (base count : Nat) : (s.loadRegs base count).dt = s.dt := by
  induction count with
  | zero => rfl
  | succ n ih => simpa [State.loadRegs] using ih
@[simp] theorem loadRegs_st (base count : Nat) : (s.loadRegs base count).st = s.st := by
  induction count with
  | zero => rfl
  | succ n ih => simpa [State.loadRegs] using ih
@[simp] theorem loadRegs_cyc (base count : Nat) : (s.loadRegs base count).cyc = s.cyc := by
  induction count with
  | zero => rfl
  | succ n ih => simpa [State.loadRegs] using ih
@[simp] theorem loadRegs_fault (base count : Nat) : (s.loadRegs base count).fault = s.fault := by
  induction count with
  | zero => rfl
  | succ n ih => simpa [State.loadRegs] using ih
@[simp] theorem loadRegs_mem (base count : Nat) : (s.loadRegs base count).mem = s.mem := by
  induction count with
  | zero => rfl
  | succ n ih => simpa [State.loadRegs] using ih
@[simp] theorem loadRegs_fb (base count : Nat) : (s.loadRegs base count).fb = s.fb := by
  induction count with
  | zero => rfl
  | succ n ih => simpa [State.loadRegs] using ih
@[simp] theorem loadRegs_loadOpen (base count : Nat) : (s.loadRegs base count).loadOpen = s.loadOpen := by
  induction count with
  | zero => rfl
  | succ n ih => simpa [State.loadRegs] using ih
@[simp] theorem loadRegs_env (base count : Nat) : (s.loadRegs base count).env = s.env := by
  induction count with
  | zero => rfl
  | succ n ih => simpa [State.loadRegs] using ih
@[simp] theorem loadRegs_envCount (base count : Nat) : (s.loadRegs base count).envCount = s.envCount := by
  induction count with
  | zero => rfl
  | succ n ih => simpa [State.loadRegs] using ih
@[simp] theorem loadRegs_params (base count : Nat) : (s.loadRegs base count).params = s.params := by
  induction count with
  | zero => rfl
  | succ n ih => simpa [State.loadRegs] using ih
@[simp] theorem loadRegs_byteAt (base count : Nat) (a : Nat) : (s.loadRegs base count).byteAt a = s.byteAt a := by
  simp [State.byteAt]
@[simp] theorem loadRegs_entry (base count : Nat) (k : Nat) : (s.loadRegs base count).entry k = s.entry k := by
  simp [State.entry]

/-- A result without a flag is written to its register only (R109). -/
theorem getV_writeResult_noflag (x r : Reg) (b : Byte) :
    (s.writeResult x (b, none)).getV r = if r = x then b else s.getV r := getV_setV s x r b

/-- A result with a flag: the flag is written last, so `VF` ends as the flag even for `x = 15` (R108). -/
theorem getV_writeResult_flag (x r : Reg) (b : Byte) (f : Bool) :
    (s.writeResult x (b, some f)).getV r = if r = regVF then flagByte f else if r = x then b else s.getV r := by
  unfold State.writeResult
  by_cases h : r = regVF
  · subst h; simp
  · simp [h, getV_setFlag_of_ne, getV_setV]

/-- A skip adds 2 to the advanced `PC` exactly when its condition holds (42_skip.md). -/
@[simp] theorem skipIf_pc (c : Bool) : (s.skipIf c).pc = if c then s.pc + 2 else s.pc := by
  unfold State.skipIf; split <;> simp

@[simp] theorem skipIf_v (c : Bool) : (s.skipIf c).v = s.v := by unfold State.skipIf; split <;> rfl

@[simp] theorem skipIf_getV (c : Bool) (r : Reg) : (s.skipIf c).getV r = s.getV r := by
  unfold State.skipIf; split <;> rfl

/-- `I` and `VF` after `ADD I,Vx` (R103). -/
@[simp] theorem addToIndex_i (strict : Bool) (x : Reg) :
    (s.addToIndex strict x).i = BitVec.ofNat 16 (s.i.toNat + (s.getV x).toNat) := rfl

@[simp] theorem addToIndex_getV_VF (strict : Bool) (x : Reg) :
    (s.addToIndex strict x).getV regVF = flagByte (rangeFlag strict (s.i.toNat + (s.getV x).toNat)) := by
  simp [State.addToIndex]

theorem addToIndex_getV_of_ne (strict : Bool) (x r : Reg) (h : r ≠ regVF) :
    (s.addToIndex strict x).getV r = s.getV r := by
  simp [State.addToIndex, getV_setFlag_of_ne, h]

/-- The key-wait with a key (R125). -/
@[simp] theorem afterKeyWait_some (x : Reg) (k : Byte) : s.afterKeyWait x (some k) = s.setV x k := rfl

/-- The key-wait without a key (R125). -/
@[simp] theorem afterKeyWait_none (x : Reg) : s.afterKeyWait x none = s.setPc (s.pc - 2) := rfl

/-! ### Block transfers -/

/-- `LD Vx,[I]`: register `r` below `count` receives `MEM[base + r]`, every other register is kept (R131). -/
theorem getV_loadRegs (base count : Nat) (hc : count ≤ 16) (r : Reg) :
    (s.loadRegs base count).getV r = if r.toNat < count then s.byteAt (base + r.toNat) else s.getV r := by
  induction count with
  | zero => simp [State.loadRegs]
  | succ n ih =>
    have hn : (BitVec.ofNat 4 n).toNat = n := by simp; omega
    rw [State.loadRegs, getV_setV, ih (by omega)]
    by_cases h : r = BitVec.ofNat 4 n
    · subst h; simp [hn]
    · have : r.toNat ≠ n := fun e => h (BitVec.eq_of_toNat_eq (by rw [hn]; exact e))
      simp only [h, if_false]
      by_cases h2 : r.toNat < n
      · simp [h2, Nat.lt_succ_of_lt h2]
      · simp [h2, show ¬ r.toNat < n + 1 by omega]

/-- `LD [I],Vx` stores as many bytes as registers. -/
@[simp] theorem firstRegs_length (count : Nat) : (s.firstRegs count).length = count := by simp [State.firstRegs]

/-- The `r`-th byte `LD [I],Vx` stores is `V[r]` (R130). -/
theorem firstRegs_getElem (count r : Nat) (h : r < (s.firstRegs count).length) :
    (s.firstRegs count)[r] = s.getV (BitVec.ofNat 4 r) := by simp [State.firstRegs]

/-- `LD B,Vx` stores three bytes (R129). -/
@[simp] theorem bcdDigits_length (b : Byte) : (bcdDigits b).length = 3 := rfl

/-! ### Range checks and reads -/

/-- When the range check of a multi-byte instruction passes (R53, R141). -/
theorem rangeFault_none_iff (kind : AccessKind) (base count : Nat) :
    rangeFault kind base count = none ↔ count = 0 ∨ base + count ≤ 0x1000 := by
  unfold rangeFault; split <;> simp <;> omega

/-- What the range check raises: the lowest out-of-range address (R141). -/
theorem rangeFault_of_out (kind : AccessKind) (base count : Nat) (hc : 0 < count) (h : 0x1000 < base + count) :
    rangeFault kind base count = some (memoryFaultAt kind (max base 0x1000)) := by
  unfold rangeFault; rw [if_pos]; omega

/-- After the range check every `MemRead` of the block succeeds with the byte (R43). -/
theorem memRead_of_rangeFault_none (kind : AccessKind) (base count j : Nat) (hj : j < count)
    (h : rangeFault kind base count = none) : s.memRead kind (base + j) = .ok (s.byteAt (base + j)) := by
  have := (rangeFault_none_iff kind base count).1 h
  unfold State.memRead; rw [if_neg]; omega

/-- A byte outside a stored block reads as before (R47). -/
theorem byteAt_store_of_outside (base a : Nat) (bs : List Byte) (h : a < base ∨ base + bs.length ≤ a) :
    (s.store base bs).byteAt a = s.byteAt a := Memory.read_writeBytes_of_outside bs s.mem base a h

/-- A byte inside a stored block reads as the byte stored there (R43, R47). -/
theorem byteAt_store_inside (base j : Nat) (bs : List Byte) (hj : j < bs.length)
    (hlt : base + bs.length ≤ 0x1000) (hw : Memory.wf s.params s.mem = true) :
    (s.store base bs).byteAt (base + j) = bs[j] := Memory.read_writeBytes_inside bs s.mem base j hj hlt hw

/-- A block stored inside the 4096 bytes keeps the canonical form. -/
theorem wf_store (base : Nat) (bs : List Byte) (hlt : base + bs.length ≤ 0x1000)
    (hw : Memory.wf s.params s.mem = true) : Memory.wf s.params (s.store base bs).mem = true :=
  Memory.wf_writeBytes bs s.mem base hlt hw

/-- A fetch succeeds exactly when both bytes lie in memory, and reads them big-endian (R44). -/
theorem fetchWord_ok (h : s.pc.toNat ≤ 0xFFE) :
    s.fetchWord = .ok (wordOfBytes (s.byteAt s.pc.toNat) (s.byteAt (s.pc.toNat + 1))) := by
  unfold State.fetchWord State.memRead
  rw [if_neg (by omega), if_neg (by omega)]

/-- A fetch that fails, with the lowest out-of-range address (R141 a, b). -/
theorem fetchWord_error (h : 0xFFE < s.pc.toNat) :
    s.fetchWord = .error (memoryFaultAt .fetch (max s.pc.toNat 0x1000)) := by
  unfold State.fetchWord State.memRead
  by_cases h2 : s.pc.toNat > 0xFFF
  · rw [if_pos h2, Nat.max_eq_left (by omega)]
  · have he : s.pc.toNat = 0xFFF := by omega
    simp [he]

/-- A word that was fetched tells where `PC` stood. -/
theorem pc_of_fetchWord_ok (w : Word) (h : s.fetchWord = .ok w) : s.pc.toNat ≤ 0xFFE := by
  by_contra hc
  rw [fetchWord_error s (by omega)] at h
  cases h

/-! ### The call stack -/

/-- An entry after a write: the written one, or as before (R14). -/
theorem stackRead_stackWrite (es : List Word) (k j : Nat) (w : Word) :
    stackRead (stackWrite es k w) j = if j = k then w else stackRead es j := by
  induction es, k, w using stackWrite.induct generalizing j with
  | case1 w => cases j <;> simp [stackWrite, stackRead]
  | case2 w k ih =>
    cases j with
    | zero => simp [stackWrite, stackRead]
    | succ j => simpa [stackWrite, stackRead] using ih j
  | case3 w e es => cases j <;> simp [stackWrite, stackRead]
  | case4 w e es k ih =>
    cases j with
    | zero => simp [stackWrite, stackRead]
    | succ j => simpa [stackWrite, stackRead] using ih j

/-- How long the list of written entries is after a write. -/
theorem length_stackWrite (es : List Word) (k : Nat) (w : Word) : (stackWrite es k w).length = max es.length (k + 1) := by
  induction es, k, w using stackWrite.induct with
  | case1 w => simp [stackWrite]
  | case2 w k ih => simp [stackWrite, ih]
  | case3 w e es => simp [stackWrite]
  | case4 w e es k ih => simp [stackWrite, ih]

/-- `Push` below full depth (R14). -/
theorem push_ok (w : Word) (h : s.params.stackDepth ≠ some s.sp) :
    s.push w = .ok { s with stack := stackWrite s.stack s.sp w, sp := s.sp + 1 } := if_neg h

/-- `Push` at full depth (R14, R143). -/
theorem push_full (w : Word) (h : s.params.stackDepth = some s.sp) : s.push w = .error .stackOverflow := if_pos h

/-- `Pop` of an empty stack (R14, R142). -/
theorem pop_empty (h : s.sp = 0) : s.pop = .error .stackUnderflow := if_pos h

/-- `Pop` of a stack that is not empty (R14). -/
theorem pop_ok (h : ¬ s.sp = 0) : s.pop = .ok (s.entry (s.sp - 1), { s with sp := s.sp - 1 }) := if_neg h

/-! ### The timer phase -/

/-- A timer after the timer phase, as a number: one less, floored at 0, exactly when the new counter is 0 (R151). -/
theorem tickTimer_toNat (c : Fin Config.timerDiv) (b : Byte) :
    (tickTimer c b).toNat = if (c.val + 1) % 3 = 0 then b.toNat - 1 else b.toNat := by
  have hb := b.isLt
  unfold tickTimer
  by_cases h : (c.val + 1) % 3 = 0
  · rw [if_pos h, if_pos (show (nextCyc c).val = 0 from h)]
    unfold floorDec
    by_cases h0 : b = 0
    · rw [if_pos h0, h0]; rfl
    · have : b.toNat ≠ 0 := fun e => h0 (BitVec.eq_of_toNat_eq e)
      rw [if_neg h0, BitVec.toNat_sub]; simp; omega
  · rw [if_neg h, if_neg (show ¬ (nextCyc c).val = 0 from h)]

/-- The counter after the timer phase (R151). -/
theorem nextCyc_val (c : Fin Config.timerDiv) : (nextCyc c).val = (c.val + 1) % 3 := rfl

/-! ### The end of a step -/

@[simp] theorem commit_none (t : State) : s.commit none t = .next t := rfl

@[simp] theorem commit_some (f : Fault) (t : State) : s.commit (some f) t = .next (s.takeFault f) := rfl

/-- A running engine's step when the word can be fetched (R21). -/
theorem step_of_fetch (hf : s.fault = none) (w : Word) (hw : s.fetchWord = .ok w) : step s = exec (decode w) s := by
  unfold step; rw [hf]; simp only [hw]

/-- A running engine's step when it cannot (R148). -/
theorem step_of_fetch_error (hf : s.fault = none) (f : Fault) (hw : s.fetchWord = .error f) :
    step s = .next (s.takeFault f) := by
  unfold step; rw [hf]; simp only [hw]

/-- A halted engine's step (R145). -/
theorem step_of_halted (h : s.fault ≠ none) : step s = .next s := by
  unfold step
  cases hf : s.fault with
  | none => exact absurd hf h
  | some f => rfl

/-! ### `CALL` and `RET` over the stack operations -/

/-- `CALL` below full depth, in one equation (R86). -/
theorem exec_callAddr_ok (nnn : Addr) (h : s.params.stackDepth ≠ some s.sp) :
    exec (.callAddr nnn) s = .next (State.setPc { s.advance with
      stack := stackWrite s.stack s.sp (s.pc + 2), sp := s.sp + 1 } (zextAddr nnn)) := by
  have hp := push_ok s.advance s.advance.pc h
  simp only [exec, execCallAddr, hp]; rfl

/-- `CALL` at full depth (R143). -/
theorem exec_callAddr_full (nnn : Addr) (h : s.params.stackDepth = some s.sp) :
    exec (.callAddr nnn) s = .next (s.takeFault .stackOverflow) := by
  have hp := push_full s.advance s.advance.pc h
  simp only [exec, execCallAddr, hp]

/-- `RET` on a stack that is not empty, in one equation (R81). -/
theorem exec_ret_ok (h : ¬ s.sp = 0) :
    exec .ret s = .next (State.setPc { s.advance with sp := s.sp - 1 } (s.entry (s.sp - 1))) := by
  have hp := pop_ok s.advance h
  simp only [exec, execRet, hp]; rfl

/-- `RET` on an empty stack (R142). -/
theorem exec_ret_empty (h : s.sp = 0) : exec .ret s = .next (s.takeFault .stackUnderflow) := by
  have hp := pop_empty s.advance h
  simp only [exec, execRet, hp]

/-! ### The Keypad's answer to a key-wait -/

/-- A key index that is answered is a key's (R160). -/
theorem lt_of_keyIndexAnswer (p : Params) (inp : StepInputs) (k : Byte) (h : keyIndexAnswer p inp = some k) :
    k.toNat < p.nkeys := by
  have := (Option.filter_eq_some_iff.mp h).2
  simpa using this

end Sys2Proof.Machine
end

