-- ==== Sys2Proof/Laws/Draw.lean ====
section
/-! SUPPORT. The sprite loop of `DRW` (45_random_draw.md R114) in closed form: which pixels it toggles, and when a toggled
pixel was on. -/

namespace Sys2Proof.Machine

/-- A toggle flips its pixel and no other (R158). -/
theorem pixelActive_togglePixel (f : Framebuffer) (x px : Fin 64) (y py : Fin 32) :
    pixelActive (togglePixel f x y) px py =
      if px = x ∧ py = y then !pixelActive f x y else pixelActive f px py := by
  unfold togglePixel pixelActive
  by_cases hy : py = y
  · subst hy
    by_cases hx : px = x
    · subst hx; simp
    · have : ¬ x.val = px.val := fun e => hx (Fin.ext e.symm)
      simp [hx, this]
  · have : ¬ y.val = py.val := fun e => hy (Fin.ext e.symm)
    simp [hy, this]

/-- The cleared screen is off everywhere (R156). -/
@[simp] theorem pixelActive_clearedScreen (px : Fin 64) (py : Fin 32) : pixelActive clearedScreen px py = false := by
  simp [pixelActive, clearedScreen]

/-- Whether the first `n` columns of a row at `x0` with row byte `b` toggle column `px`. -/
def rowBit (x0 : Nat) (b : Byte) (n : Nat) (px : Fin 64) : Bool :=
  decide (x0 ≤ px.val ∧ px.val < x0 + n) && b.getLsbD (7 - (px.val - x0))

/-- One more column reaches one more pixel. -/
theorem rowBit_succ (x0 : Nat) (b : Byte) (n : Nat) (px : Fin 64) :
    rowBit x0 b (n + 1) px = if px.val = x0 + n then b.getLsbD (7 - n) else rowBit x0 b n px := by
  unfold rowBit
  by_cases h : px.val = x0 + n
  · simp [h]
  · have : (x0 ≤ px.val ∧ px.val < x0 + (n + 1)) ↔ (x0 ≤ px.val ∧ px.val < x0 + n) := by omega
    simp [h, this]

/-- The first `n` columns of a sprite row toggle exactly the pixels of their 1 bits. -/
theorem pixelActive_row_fold (x0 : Nat) (y : Fin 32) (b : Byte) (d : Drawing) (n : Nat) (px : Fin 64) (py : Fin 32) :
    pixelActive ((List.range n).foldl (drawPixel x0 y b) d).fb px py =
      ((decide (py = y) && rowBit x0 b n px) ^^ pixelActive d.fb px py) := by
  induction n with
  | zero => have : rowBit x0 b 0 px = false := by simp [rowBit]
            simp [this]
  | succ n ih =>
    rw [List.range_succ, List.foldl_append, List.foldl_cons, List.foldl_nil, rowBit_succ]
    generalize hd : (List.range n).foldl (drawPixel x0 y b) d = e at ih
    unfold drawPixel
    split
    · next h =>
      split
      · next hb =>
        rw [pixelActive_togglePixel]
        by_cases hx : px = ⟨x0 + n, h⟩
        · have hv : px.val = x0 + n := by rw [hx]
          by_cases hy : py = y
          · subst hy; subst hx
            have h0 : rowBit x0 b n ⟨x0 + n, h⟩ = false := by simp [rowBit]
            simp [ih, hb, h0]
          · simp [hy, ih]
        · have hv : ¬ px.val = x0 + n := fun e => hx (Fin.ext e)
          simp [hx, ih, hv]
      · next hb =>
        by_cases hv : px.val = x0 + n
        · have h0 : rowBit x0 b n px = false := by simp [rowBit]; omega
          simp [ih, hv, hb, h0]
        · simp [ih, hv]
    · next h =>
      have hv : ¬ px.val = x0 + n := by have := px.isLt; omega
      simp [ih, hv]

/-- The first `n` columns of a sprite row collide exactly when one of their 1 bits finds its pixel on. -/
theorem collision_row_fold (x0 : Nat) (y : Fin 32) (b : Byte) (d : Drawing) (n : Nat) :
    ((List.range n).foldl (drawPixel x0 y b) d).collision = true ↔
      d.collision = true ∨ ∃ px : Fin 64, rowBit x0 b n px = true ∧ pixelActive d.fb px y = true := by
  induction n with
  | zero => simp [rowBit]
  | succ n ih =>
    rw [List.range_succ, List.foldl_append, List.foldl_cons, List.foldl_nil]
    have hp := pixelActive_row_fold x0 y b d n
    generalize hd : (List.range n).foldl (drawPixel x0 y b) d = e at ih hp
    have hstep : (∃ px : Fin 64, rowBit x0 b (n + 1) px = true ∧ pixelActive d.fb px y = true) ↔
        (∃ px : Fin 64, rowBit x0 b n px = true ∧ pixelActive d.fb px y = true) ∨
        (∃ h : x0 + n < 64, b.getLsbD (7 - n) = true ∧ pixelActive d.fb ⟨x0 + n, h⟩ y = true) := by
      constructor
      · rintro ⟨px, h1, h2⟩
        rw [rowBit_succ] at h1
        by_cases hv : px.val = x0 + n
        · right
          refine ⟨hv ▸ px.isLt, by simpa [hv] using h1, ?_⟩
          have : px = ⟨x0 + n, hv ▸ px.isLt⟩ := Fin.ext hv
          rw [← this]; exact h2
        · left; exact ⟨px, by simpa [hv] using h1, h2⟩
      · rintro (⟨px, h1, h2⟩ | ⟨h, h1, h2⟩)
        · refine ⟨px, ?_, h2⟩
          rw [rowBit_succ]
          have : ¬ px.val = x0 + n := by
            intro hv; simp [rowBit, hv] at h1
          simpa [this] using h1
        · exact ⟨⟨x0 + n, h⟩, by rw [rowBit_succ]; simpa using h1, h2⟩
    rw [hstep, ← or_assoc, ← ih]
    unfold drawPixel
    split
    · next h =>
      have hcur : pixelActive e.fb ⟨x0 + n, h⟩ y = pixelActive d.fb ⟨x0 + n, h⟩ y := by
        rw [hp]; simp [rowBit]
      split
      · next hb => simp [hcur, h, hb]
      · next hb => simp [hb]
    · next h => simp [h]

/-- Whether the first `rows` rows of a sprite toggle a pixel. -/
def spritePixel (byte : Nat → Byte) (x0 y0 rows : Nat) (px : Fin 64) (py : Fin 32) : Bool :=
  decide (y0 ≤ py.val ∧ py.val < y0 + rows) && rowBit x0 (byte (py.val - y0)) 8 px

/-- One more row reaches one more screen row. -/
theorem spritePixel_succ (byte : Nat → Byte) (x0 y0 n : Nat) (px : Fin 64) (py : Fin 32) :
    spritePixel byte x0 y0 (n + 1) px py =
      if py.val = y0 + n then rowBit x0 (byte n) 8 px else spritePixel byte x0 y0 n px py := by
  unfold spritePixel
  by_cases h : py.val = y0 + n
  · simp [h]
  · have : (y0 ≤ py.val ∧ py.val < y0 + (n + 1)) ↔ (y0 ≤ py.val ∧ py.val < y0 + n) := by omega
    simp [h, this]

/-- The pixels after a sprite of `rows` rows: each pixel of a visible 1 bit is flipped, no other (R114, R158). -/
theorem pixelActive_drawSprite (byte : Nat → Byte) (x0 y0 rows : Nat) (f : Framebuffer) (px : Fin 64) (py : Fin 32) :
    pixelActive (drawSprite byte x0 y0 rows f).fb px py =
      (spritePixel byte x0 y0 rows px py ^^ pixelActive f px py) := by
  unfold drawSprite
  induction rows with
  | zero => have : spritePixel byte x0 y0 0 px py = false := by
              simp [spritePixel]
            simp [this]
  | succ n ih =>
    rw [List.range_succ, List.foldl_append, List.foldl_cons, List.foldl_nil, spritePixel_succ]
    generalize (List.range n).foldl (drawSpriteRow byte x0 y0) ⟨f, false⟩ = e at ih
    unfold drawSpriteRow
    split
    · next h =>
      rw [drawRow, pixelActive_row_fold, ih]
      by_cases hy : py = ⟨y0 + n, h⟩
      · have hv : py.val = y0 + n := by rw [hy]
        have h0 : spritePixel byte x0 y0 n px py = false := by
          have : ¬ (y0 ≤ py.val ∧ py.val < y0 + n) := by omega
          simp [spritePixel, this]
        rw [h0, if_pos hv]; simp [hy]
      · have hv : ¬ py.val = y0 + n := fun e => hy (Fin.ext e)
        simp [hy, hv]
    · next h =>
      have hv : ¬ py.val = y0 + n := by have := py.isLt; omega
      simp [ih, hv]

/-- When a sprite collides: one of the pixels it toggles was on (R114). -/
theorem collision_drawSprite (byte : Nat → Byte) (x0 y0 rows : Nat) (f : Framebuffer) :
    (drawSprite byte x0 y0 rows f).collision = true ↔
      ∃ (px : Fin 64) (py : Fin 32), spritePixel byte x0 y0 rows px py = true ∧ pixelActive f px py = true := by
  have hpix := pixelActive_drawSprite byte x0 y0
  unfold drawSprite at *
  induction rows with
  | zero =>
    have h0 : ∀ px py, spritePixel byte x0 y0 0 px py = false := by
      intro px py; simp [spritePixel]
    simp [h0]
  | succ n ih =>
    rw [List.range_succ, List.foldl_append, List.foldl_cons, List.foldl_nil]
    have hn := hpix n f
    generalize (List.range n).foldl (drawSpriteRow byte x0 y0) ⟨f, false⟩ = e at ih hn
    have hstep : (∃ (px : Fin 64) (py : Fin 32), spritePixel byte x0 y0 (n + 1) px py = true ∧
          pixelActive f px py = true) ↔
        (∃ (px : Fin 64) (py : Fin 32), spritePixel byte x0 y0 n px py = true ∧ pixelActive f px py = true) ∨
        (∃ h : y0 + n < 32, ∃ px : Fin 64, rowBit x0 (byte n) 8 px = true ∧
          pixelActive f px ⟨y0 + n, h⟩ = true) := by
      constructor
      · rintro ⟨px, py, h1, h2⟩
        rw [spritePixel_succ] at h1
        by_cases hv : py.val = y0 + n
        · right
          refine ⟨hv ▸ py.isLt, px, by simpa [hv] using h1, ?_⟩
          have : py = ⟨y0 + n, hv ▸ py.isLt⟩ := Fin.ext hv
          rw [← this]; exact h2
        · left; exact ⟨px, py, by simpa [hv] using h1, h2⟩
      · rintro (⟨px, py, h1, h2⟩ | ⟨h, px, h1, h2⟩)
        · refine ⟨px, py, ?_, h2⟩
          rw [spritePixel_succ]
          have : ¬ py.val = y0 + n := by
            intro hv; simp [spritePixel, hv] at h1
          simpa [this] using h1
        · exact ⟨px, ⟨y0 + n, h⟩, by rw [spritePixel_succ]; simpa using h1, h2⟩
    rw [hstep]
    refine Iff.trans ?_ (or_congr_left ih)
    unfold drawSpriteRow
    split
    · next h =>
      have hcur : ∀ px, pixelActive e.fb px ⟨y0 + n, h⟩ = pixelActive f px ⟨y0 + n, h⟩ := by
        intro px; rw [hn]; simp [spritePixel]
      rw [drawRow, collision_row_fold]
      simp [hcur, h]
    · next h => simp [h]

end Sys2Proof.Machine
end

