-- ==== Sys2Proof/Laws/Exec.lean ====
section
/-! SUPPORT. What executing an instruction can do, said once: it takes the fault that `faultOf` gives it, or it commits a
state of which every instruction leaves most alone. Later proofs cite these and do not unfold `exec`. -/

namespace Sys2Proof.Machine

variable (s : State)

/-- The check in the words of the rules and the check the meanings make agree. -/
theorem rangeFault_eq (kind : AccessKind) (base count : Nat) :
    rangeFault kind base count =
      if 0 < count ∧ base + count > 0x1000 then some (.memoryFault kind (BitVec.ofNat 17 (max base 0x1000))) else none := by
  unfold rangeFault memoryFaultAt
  have : (0 < count ∧ base + count - 1 > 0xFFF) ↔ (0 < count ∧ base + count > 0x1000) := by omega
  simp only [this]

/-- An instruction that raises a fault: only `FAULT` changes (R144). -/
theorem exec_of_faultOf_some (i : Instr) (f : Fault) (h : faultOf i s = some f) :
    exec i s = .next (s.takeFault f) := by
  cases i with
  | ret =>
    by_cases h0 : s.sp = 0
    · simp [faultOf, h0] at h; subst h; exact exec_ret_empty s h0
    · simp [faultOf, h0] at h
  | callAddr nnn =>
    by_cases h0 : s.params.stackDepth = some s.sp
    · simp [faultOf, h0] at h; subst h; exact exec_callAddr_full s nnn h0
    · simp [faultOf, h0] at h
  | drwVxVyNibble x y n =>
    have hr : rangeFault .read s.i.toNat (rowsRead s y n) = some f := (rangeFault_eq _ _ _).trans h
    show s.commit (rangeFault .read s.i.toNat (rowsRead s y n)) _ = _
    rw [hr]; rfl
  | ldBVx x =>
    have hr : rangeFault .write s.i.toNat 3 = some f := (rangeFault_eq _ _ _).trans h
    show s.commit (rangeFault .write s.i.toNat 3) _ = _
    rw [hr]; rfl
  | ldMemVx x =>
    have hr : rangeFault .write s.i.toNat (x.toNat + 1) = some f := (rangeFault_eq _ _ _).trans h
    show s.commit (rangeFault .write s.i.toNat (x.toNat + 1)) _ = _
    rw [hr]; rfl
  | ldVxMem x =>
    have hr : rangeFault .read s.i.toNat (x.toNat + 1) = some f := (rangeFault_eq _ _ _).trans h
    show s.commit (rangeFault .read s.i.toNat (x.toNat + 1)) _ = _
    rw [hr]; rfl
  | _ => simp [faultOf] at h

/-- `DRW` whose rows all lie in memory (R114). -/
theorem exec_drw_ok (x y : Reg) (n : Nibble) (h : faultOf (.drwVxVyNibble x y n) s = none) :
    exec (.drwVxVyNibble x y n) s =
      .next ((s.advance.setFb (s.advance.sprite x y n).fb).setFlag (s.advance.sprite x y n).collision) := by
  have hr : rangeFault .read s.i.toNat (rowsRead s y n) = none := (rangeFault_eq _ _ _).trans h
  show s.commit (rangeFault .read s.i.toNat (rowsRead s y n)) _ = _
  rw [hr]; rfl

/-- `LD B,Vx` whose three bytes lie in memory (R129). -/
theorem exec_ldBVx_ok (x : Reg) (h : faultOf (.ldBVx x) s = none) :
    exec (.ldBVx x) s = .next (s.advance.store s.i.toNat (bcdDigits (s.getV x))) := by
  have hr : rangeFault .write s.i.toNat 3 = none := (rangeFault_eq _ _ _).trans h
  show s.commit (rangeFault .write s.i.toNat 3) _ = _
  rw [hr]; rfl

/-- `LD [I],Vx` whose bytes lie in memory (R130). -/
theorem exec_ldMemVx_ok (x : Reg) (h : faultOf (.ldMemVx x) s = none) :
    exec (.ldMemVx x) s =
      .next (s.advance.store s.i.toNat (s.advance.firstRegs (x.toNat + 1))) := by
  have hr : rangeFault .write s.i.toNat (x.toNat + 1) = none := (rangeFault_eq _ _ _).trans h
  show s.commit (rangeFault .write s.i.toNat (x.toNat + 1)) _ = _
  rw [hr]; rfl

/-- `LD Vx,[I]` whose bytes lie in memory (R131). -/
theorem exec_ldVxMem_ok (x : Reg) (h : faultOf (.ldVxMem x) s = none) :
    exec (.ldVxMem x) s = .next (s.advance.loadRegs s.i.toNat (x.toNat + 1)) := by
  have hr : rangeFault .read s.i.toNat (x.toNat + 1) = none := (rangeFault_eq _ _ _).trans h
  show s.commit (rangeFault .read s.i.toNat (x.toNat + 1)) _ = _
  rw [hr]; rfl

/-- What every committed step does, whatever the instruction: `FAULT` is kept, `CYC` advances, each timer not set by the
instruction is ticked, this step's inputs are gone, no load is accepted any more, and the parameters stay (R21, R151, R182, R20(f)). -/
structure CommittedBy (i : Instr) (s t : State) : Prop where
  fault : t.fault = s.fault
  cyc : t.cyc = nextCyc s.cyc
  dt : (∀ x, i ≠ .ldDTVx x) → t.dt = tickTimer s.cyc s.dt
  st : (∀ x, i ≠ .ldSTVx x) → t.st = tickTimer s.cyc s.st
  env : t.env = s.env.tail
  envCount : t.envCount = s.envCount + 1
  params : t.params = s.params
  loadOpen : t.loadOpen = false

/-- An instruction that raises no fault commits a next state. -/
theorem exec_of_faultOf_none (i : Instr) (h : faultOf i s = none) :
    ∃ t, exec i s = .next t ∧ CommittedBy i s t := by
  cases i with
  | ret =>
    have h0 : ¬ s.sp = 0 := by intro h0; simp [faultOf, h0] at h
    exact ⟨_, exec_ret_ok s h0, by constructor <;> simp⟩
  | callAddr nnn =>
    have h0 : s.params.stackDepth ≠ some s.sp := by intro h0; simp [faultOf, h0] at h
    exact ⟨_, exec_callAddr_ok s nnn h0, by constructor <;> simp⟩
  | drwVxVyNibble x y n => exact ⟨_, exec_drw_ok s x y n h, by constructor <;> simp⟩
  | ldBVx x => exact ⟨_, exec_ldBVx_ok s x h, by constructor <;> simp⟩
  | ldMemVx x => exact ⟨_, exec_ldMemVx_ok s x h, by constructor <;> simp⟩
  | ldVxMem x => exact ⟨_, exec_ldVxMem_ok s x h, by constructor <;> simp⟩
  | _ => exact ⟨_, rfl, by constructor <;> simp⟩

end Sys2Proof.Machine
end

