-- ==== Sys2Proof/Laws/Frame.lean ====
section
/-! SUPPORT. The inversion lemma of `exec`: what an instruction that raises no fault can have written, in the terms of
Safety.lean, and what it leaves in `PC`. Later proofs cite these and do not go through the instructions again. -/

namespace Sys2Proof.Machine

/-- What an instruction that raised no fault can have done to everything but `PC`, the timers and the inputs. -/
structure WritesOnly (i : Instr) (s t : State) : Prop where
  regs : ∀ r, r ∉ destinations i → t.getV r = s.getV r
  index : t.i = s.i ∨ (∃ nnn, i = .ldIAddr nnn) ∨ (∃ x, i = .addIVx x) ∨ ∃ x, i = .ldFVx x
  memory : t.mem = s.mem ∨ ∃ bs : List Byte, bs.length = storedBytes i ∧
    t.mem = Memory.writeBytes s.params s.mem s.i.toNat bs ∧ s.i.toNat + bs.length ≤ Config.memSize
  screen : t.fb = s.fb ∨ i = .cls ∨ ∃ x y n, i = .drwVxVyNibble x y n
  stack : (t.sp = s.sp ∧ t.stack = s.stack) ∨
    (i = .ret ∧ t.stack = s.stack ∧ t.sp + 1 = s.sp) ∨
    ∃ nnn, i = .callAddr nnn ∧ s.params.stackDepth ≠ some s.sp ∧ t.stack = stackWrite s.stack s.sp (s.pc + 2) ∧
      t.sp = s.sp + 1

variable {s t : State}

/-- `RET` raises no fault: the stack is not empty. -/
theorem sp_ne_zero_of_faultOf_ret (h : faultOf .ret s = none) : ¬ s.sp = 0 := by
  intro h0; simp [faultOf, h0] at h

/-- `CALL` raises no fault: the stack is not full. -/
theorem not_full_of_faultOf_callAddr (nnn : Addr) (h : faultOf (.callAddr nnn) s = none) :
    s.params.stackDepth ≠ some s.sp := by
  intro h0; simp [faultOf, h0] at h

/-- The block load writes no register above its count (R131). -/
theorem getV_loadRegs_of_notMem (x r : Reg) (u : State) (base : Nat) (h : r ∉ destinations (.ldVxMem x)) :
    (u.loadRegs base (x.toNat + 1)).getV r = u.getV r := by
  have := x.isLt
  rw [getV_loadRegs _ _ _ (by omega), if_neg]
  intro hc
  exact h (List.mem_map.mpr ⟨r.toNat, List.mem_range.mpr hc, by simp⟩)

/-- What an instruction that raises no fault writes, whatever it is. -/
theorem exec_writesOnly (i : Instr) (h : faultOf i s = none) (hx : exec i s = .next t) : WritesOnly i s t := by
  cases i with
  | ret =>
    have h0 := sp_ne_zero_of_faultOf_ret h
    rw [exec_ret_ok s h0] at hx; cases hx
    constructor <;> simp [State.getV]
    omega
  | callAddr nnn =>
    have h0 := not_full_of_faultOf_callAddr nnn h
    rw [exec_callAddr_ok s nnn h0] at hx; cases hx
    constructor <;> simp [State.getV, h0]
  | drwVxVyNibble x y n =>
    rw [exec_drw_ok s x y n h] at hx; cases hx
    constructor <;> simp +contextual [destinations, getV_setFlag_of_ne]
  | ldBVx x =>
    have hh : s.i.toNat + 3 ≤ 0x1000 := by simp [faultOf] at h; omega
    rw [exec_ldBVx_ok s x h] at hx; cases hx
    exact ⟨fun _ _ => rfl, .inl rfl, .inr ⟨_, rfl, rfl, hh⟩, .inl rfl, .inl ⟨rfl, rfl⟩⟩
  | ldMemVx x =>
    have hh : s.i.toNat + (x.toNat + 1) ≤ 0x1000 := by simp [faultOf] at h; omega
    rw [exec_ldMemVx_ok s x h] at hx; cases hx
    exact ⟨fun _ _ => rfl, .inl rfl,
      .inr ⟨s.advance.firstRegs (x.toNat + 1), by simp [storedBytes], rfl, by simpa [Config.memSize] using hh⟩,
      .inl rfl, .inl ⟨rfl, rfl⟩⟩
  | ldVxMem x =>
    rw [exec_ldVxMem_ok s x h] at hx; cases hx
    exact ⟨fun r hr => getV_loadRegs_of_notMem x r s.advance _ hr, .inl (by simp), .inl (by simp), .inl (by simp),
      .inl (by simp)⟩
  | ldVxK x =>
    cases hx
    cases keyIndexAnswer s.params s.inputs <;> constructor <;> simp +contextual [destinations, getV_setV_of_ne]
  | addVxVy x y | subVxVy x y | subnVxVy x y | shrVx x y | shlVx x y =>
    cases hx
    constructor <;> simp +contextual [destinations, State.aluInto, alu, getV_writeResult_flag]
  | ldVxVy x y | orVxVy x y | andVxVy x y | xorVxVy x y | ldVxByte x kk | addVxByte x kk | rndVxByte x kk =>
    cases hx
    constructor <;> simp +contextual [destinations, State.aluInto, alu, getV_writeResult_noflag]
  | addIVx x =>
    cases hx
    constructor <;> simp +contextual [destinations, addToIndex_getV_of_ne]
  | _ =>
    cases hx
    constructor <;> simp +contextual [destinations, getV_setV_of_ne]

/-- What an instruction that raises no fault leaves in `PC` (R22). -/
theorem exec_pc (i : Instr) (h : faultOf i s = none) (hx : exec i s = .next t) : t.pc = pcAfter i s := by
  have e4 : s.pc + 2#16 + 2#16 = s.pc + 4#16 := by rw [BitVec.add_assoc]; rfl
  cases i with
  | ret =>
    have h0 := sp_ne_zero_of_faultOf_ret h
    rw [exec_ret_ok s h0] at hx; cases hx
    simp [pcAfter]
  | callAddr nnn => rw [exec_callAddr_ok s nnn (not_full_of_faultOf_callAddr nnn h)] at hx; cases hx; rfl
  | drwVxVyNibble x y n => rw [exec_drw_ok s x y n h] at hx; cases hx; simp [pcAfter]
  | ldBVx x => rw [exec_ldBVx_ok s x h] at hx; cases hx; simp [pcAfter]
  | ldMemVx x => rw [exec_ldMemVx_ok s x h] at hx; cases hx; simp [pcAfter]
  | ldVxMem x => rw [exec_ldVxMem_ok s x h] at hx; cases hx; simp [pcAfter]
  | ldVxK x =>
    cases hx
    simp only [pcAfter]
    cases keyIndexAnswer s.params s.inputs <;> simp
  | _ => cases hx; simp [pcAfter, e4, State.jumpOffset, zextAddr, zextByte]

end Sys2Proof.Machine
end

