-- ==== Sys2Proof/Laws/PerInstr.lean ====
section
/-! SUPPORT. Family EncodesRow: the word an instruction is encoded as matches the instruction's row of the opcode map, under
the match and mask of 30_encoding.md R65. -/

namespace Sys2Proof.Laws

/-- The match and mask an instruction has in the opcode map (R65); the last row of the map has neither. -/
def rowOf : Instr → OpcodeRow
  | .cls => ⟨0x00E0, 0xFFFF⟩
  | .ret => ⟨0x00EE, 0xFFFF⟩
  | .jpAddr _ => ⟨0x1000, 0xF000⟩
  | .callAddr _ => ⟨0x2000, 0xF000⟩
  | .seVxByte _ _ => ⟨0x3000, 0xF000⟩
  | .sneVxByte _ _ => ⟨0x4000, 0xF000⟩
  | .seVxVy _ _ => ⟨0x5000, 0xF00F⟩
  | .ldVxByte _ _ => ⟨0x6000, 0xF000⟩
  | .addVxByte _ _ => ⟨0x7000, 0xF000⟩
  | .ldVxVy _ _ => ⟨0x8000, 0xF00F⟩
  | .orVxVy _ _ => ⟨0x8001, 0xF00F⟩
  | .andVxVy _ _ => ⟨0x8002, 0xF00F⟩
  | .xorVxVy _ _ => ⟨0x8003, 0xF00F⟩
  | .addVxVy _ _ => ⟨0x8004, 0xF00F⟩
  | .subVxVy _ _ => ⟨0x8005, 0xF00F⟩
  | .shrVx _ _ => ⟨0x8006, 0xF00F⟩
  | .subnVxVy _ _ => ⟨0x8007, 0xF00F⟩
  | .shlVx _ _ => ⟨0x800E, 0xF00F⟩
  | .sneVxVy _ _ => ⟨0x9000, 0xF00F⟩
  | .ldIAddr _ => ⟨0xA000, 0xF000⟩
  | .jpV0Addr _ => ⟨0xB000, 0xF000⟩
  | .rndVxByte _ _ => ⟨0xC000, 0xF000⟩
  | .drwVxVyNibble _ _ _ => ⟨0xD000, 0xF000⟩
  | .skpVx _ => ⟨0xE09E, 0xF0FF⟩
  | .sknpVx _ => ⟨0xE0A1, 0xF0FF⟩
  | .ldVxDT _ => ⟨0xF007, 0xF0FF⟩
  | .ldVxK _ => ⟨0xF00A, 0xF0FF⟩
  | .ldDTVx _ => ⟨0xF015, 0xF0FF⟩
  | .ldSTVx _ => ⟨0xF018, 0xF0FF⟩
  | .addIVx _ => ⟨0xF01E, 0xF0FF⟩
  | .ldFVx _ => ⟨0xF029, 0xF0FF⟩
  | .ldBVx _ => ⟨0xF033, 0xF0FF⟩
  | .ldMemVx _ => ⟨0xF055, 0xF0FF⟩
  | .ldVxMem _ => ⟨0xF065, 0xF0FF⟩
  | .unknown _ => ⟨0x0000, 0x0000⟩

/-- `w & mask == match` for the word of an instruction and the instruction's own row (R65). -/
def EncodesRow.Statement (i : Instr) : Prop := encode i &&& (rowOf i).mask = (rowOf i).pattern

/-- A word of format A under the mask of its class. -/
theorem wordA_and_mask (c : BitVec 4) (nnn : Addr) : wordA c nnn &&& 0xF000#16 = wordA c 0 := by
  unfold wordA
  apply BitVec.eq_of_getLsbD_eq; intro i hi
  interval_cases i <;> simp only [BitVec.getLsbD_and, BitVec.getLsbD_append] <;> simp

/-- A word of format XK under the mask of its class. -/
theorem wordXK_and_class (c : BitVec 4) (x : Reg) (kk : Byte) : wordXK c x kk &&& 0xF000#16 = wordXK c 0 0 := by
  unfold wordXK
  apply BitVec.eq_of_getLsbD_eq; intro i hi
  interval_cases i <;> simp only [BitVec.getLsbD_and, BitVec.getLsbD_append] <;> simp

/-- A word of format X under the mask of its class and low byte. -/
theorem wordXK_and_mask (c : BitVec 4) (x : Reg) (kk : Byte) : wordXK c x kk &&& 0xF0FF#16 = wordXK c 0 kk := by
  unfold wordXK
  apply BitVec.eq_of_getLsbD_eq; intro i hi
  interval_cases i <;> simp only [BitVec.getLsbD_and, BitVec.getLsbD_append] <;> simp

/-- A word of format XYN under the mask of its class. -/
theorem wordXY_and_class (c : BitVec 4) (x y : Reg) (n : Nibble) : wordXY c x y n &&& 0xF000#16 = wordXY c 0 0 0 := by
  unfold wordXY
  apply BitVec.eq_of_getLsbD_eq; intro i hi
  interval_cases i <;> simp only [BitVec.getLsbD_and, BitVec.getLsbD_append] <;> simp

/-- A word of format XY under the mask of its class and low nibble. -/
theorem wordXY_and_mask (c : BitVec 4) (x y : Reg) (n : Nibble) : wordXY c x y n &&& 0xF00F#16 = wordXY c 0 0 n := by
  unfold wordXY
  apply BitVec.eq_of_getLsbD_eq; intro i hi
  interval_cases i <;> simp only [BitVec.getLsbD_and, BitVec.getLsbD_append] <;> simp

theorem EncodesRow.cls : EncodesRow.Statement (.cls) := by unfold EncodesRow.Statement; decide

theorem EncodesRow.ret : EncodesRow.Statement (.ret) := by unfold EncodesRow.Statement; decide

theorem EncodesRow.jpAddr (nnn : Addr) : EncodesRow.Statement (.jpAddr nnn) := wordA_and_mask _ _

theorem EncodesRow.callAddr (nnn : Addr) : EncodesRow.Statement (.callAddr nnn) := wordA_and_mask _ _

theorem EncodesRow.seVxByte (x : Reg) (kk : Byte) : EncodesRow.Statement (.seVxByte x kk) := wordXK_and_class _ _ _

theorem EncodesRow.sneVxByte (x : Reg) (kk : Byte) : EncodesRow.Statement (.sneVxByte x kk) := wordXK_and_class _ _ _

theorem EncodesRow.seVxVy (x y : Reg) : EncodesRow.Statement (.seVxVy x y) := wordXY_and_mask _ _ _ _

theorem EncodesRow.ldVxByte (x : Reg) (kk : Byte) : EncodesRow.Statement (.ldVxByte x kk) := wordXK_and_class _ _ _

theorem EncodesRow.addVxByte (x : Reg) (kk : Byte) : EncodesRow.Statement (.addVxByte x kk) := wordXK_and_class _ _ _

theorem EncodesRow.ldVxVy (x y : Reg) : EncodesRow.Statement (.ldVxVy x y) := wordXY_and_mask _ _ _ _

theorem EncodesRow.orVxVy (x y : Reg) : EncodesRow.Statement (.orVxVy x y) := wordXY_and_mask _ _ _ _

theorem EncodesRow.andVxVy (x y : Reg) : EncodesRow.Statement (.andVxVy x y) := wordXY_and_mask _ _ _ _

theorem EncodesRow.xorVxVy (x y : Reg) : EncodesRow.Statement (.xorVxVy x y) := wordXY_and_mask _ _ _ _

theorem EncodesRow.addVxVy (x y : Reg) : EncodesRow.Statement (.addVxVy x y) := wordXY_and_mask _ _ _ _

theorem EncodesRow.subVxVy (x y : Reg) : EncodesRow.Statement (.subVxVy x y) := wordXY_and_mask _ _ _ _

theorem EncodesRow.shrVx (x y : Reg) : EncodesRow.Statement (.shrVx x y) := wordXY_and_mask _ _ _ _

theorem EncodesRow.subnVxVy (x y : Reg) : EncodesRow.Statement (.subnVxVy x y) := wordXY_and_mask _ _ _ _

theorem EncodesRow.shlVx (x y : Reg) : EncodesRow.Statement (.shlVx x y) := wordXY_and_mask _ _ _ _

theorem EncodesRow.sneVxVy (x y : Reg) : EncodesRow.Statement (.sneVxVy x y) := wordXY_and_mask _ _ _ _

theorem EncodesRow.ldIAddr (nnn : Addr) : EncodesRow.Statement (.ldIAddr nnn) := wordA_and_mask _ _

theorem EncodesRow.jpV0Addr (nnn : Addr) : EncodesRow.Statement (.jpV0Addr nnn) := wordA_and_mask _ _

theorem EncodesRow.rndVxByte (x : Reg) (kk : Byte) : EncodesRow.Statement (.rndVxByte x kk) := wordXK_and_class _ _ _

theorem EncodesRow.drwVxVyNibble (x y : Reg) (n : Nibble) : EncodesRow.Statement (.drwVxVyNibble x y n) := wordXY_and_class _ _ _ _

theorem EncodesRow.skpVx (x : Reg) : EncodesRow.Statement (.skpVx x) := wordXK_and_mask _ _ _

theorem EncodesRow.sknpVx (x : Reg) : EncodesRow.Statement (.sknpVx x) := wordXK_and_mask _ _ _

theorem EncodesRow.ldVxDT (x : Reg) : EncodesRow.Statement (.ldVxDT x) := wordXK_and_mask _ _ _

theorem EncodesRow.ldVxK (x : Reg) : EncodesRow.Statement (.ldVxK x) := wordXK_and_mask _ _ _

theorem EncodesRow.ldDTVx (x : Reg) : EncodesRow.Statement (.ldDTVx x) := wordXK_and_mask _ _ _

theorem EncodesRow.ldSTVx (x : Reg) : EncodesRow.Statement (.ldSTVx x) := wordXK_and_mask _ _ _

theorem EncodesRow.addIVx (x : Reg) : EncodesRow.Statement (.addIVx x) := wordXK_and_mask _ _ _

theorem EncodesRow.ldFVx (x : Reg) : EncodesRow.Statement (.ldFVx x) := wordXK_and_mask _ _ _

theorem EncodesRow.ldBVx (x : Reg) : EncodesRow.Statement (.ldBVx x) := wordXK_and_mask _ _ _

theorem EncodesRow.ldMemVx (x : Reg) : EncodesRow.Statement (.ldMemVx x) := wordXK_and_mask _ _ _

theorem EncodesRow.ldVxMem (x : Reg) : EncodesRow.Statement (.ldVxMem x) := wordXK_and_mask _ _ _

theorem EncodesRow.unknown (w : Word) : EncodesRow.Statement (.unknown w) := by simp [EncodesRow.Statement, rowOf]

end Sys2Proof.Laws
end

