-- ==== Sys2Proof/Laws/Run.lean ====
section
/-! SUPPORT. Steps and runs: what one step of a running engine can do, and one step at the head of a run. -/

namespace Sys2Proof.Machine

/-- A running engine whose word was fetched: the instruction commits, or its fault is taken (R21, R144). -/
theorem step_cases (s : State) (w : Word) (hf : s.fault = none) (hw : s.fetchWord = .ok w) :
    (faultOf (decode w) s = none ∧ ∃ t, exec (decode w) s = .next t ∧ step s = .next t ∧ CommittedBy (decode w) s t) ∨
    (∃ f, faultOf (decode w) s = some f ∧ step s = .next (s.takeFault f)) := by
  have hs := step_of_fetch s hf w hw
  cases hq : faultOf (decode w) s with
  | none =>
    obtain ⟨t, h1, h2⟩ := exec_of_faultOf_none s _ hq
    exact .inl ⟨rfl, t, h1, hs.trans h1, h2⟩
  | some f => exact .inr ⟨f, rfl, hs.trans (exec_of_faultOf_some s _ _ hq)⟩

/-- A run whose first step goes on. -/
theorem run_succ_of_next (n : Nat) (s t : State) (h : step s = .next t) :
    Host.Core.run Sys2Proof.core (n + 1) s = Host.Core.run Sys2Proof.core n t := by
  have h' : Sys2Proof.core.step s = .next t := h
  simp only [Host.Core.run, h']

/-- The decrementing steps among the first of `n + 1` steps and the `n` after it (R151, R152). -/
theorem decrementsIn_succ (c : Fin Config.timerDiv) (n : Nat) :
    decrementsIn c (n + 1) = (if (c.val + 1) % 3 = 0 then 1 else 0) + decrementsIn (nextCyc c) n := by
  have hc : c.val < 3 := c.isLt
  simp only [decrementsIn, nextCyc_val, Config.timerDiv]
  split <;> omega

/-- The inputs of the coming step are those at distance 0. -/
theorem inputs_eq_inputsAt_zero (s : State) : s.inputs = s.inputsAt 0 := by
  unfold State.inputs State.inputsAt
  cases s.env <;> rfl

/-- After a committed step the inputs have moved up by one. -/
theorem CommittedBy.inputsAt_eq {i : Instr} {s t : State} (h : CommittedBy i s t) (k : Nat) :
    t.inputsAt k = s.inputsAt (k + 1) := by
  unfold State.inputsAt
  rw [h.env, h.envCount]
  cases s.env with
  | nil => simp [Nat.add_assoc, Nat.add_comm 1 k]
  | cons a e => simp [Nat.add_assoc, Nat.add_comm 1 k]

end Sys2Proof.Machine
end

