-- ==== Sys2Proof/Tests/Slice0.lean ====
section
/-! SUPPORT. The model's own tests. Part 1: ill-formed terms are refused, and words decode as the spec's table says
(95_test_vectors.md section 2.1). Part 2: single steps with the results of 95_test_vectors.md sections 1 and 2, and of the
rules R14, R41 and R103 for other parameters. Part 3: for every obligation with hypotheses, states and operands that meet them. No expected value comes from running the model. -/

namespace Sys2Proof.Tests

open Sys2Proof Sys2Proof.Machine

/-! ### Part 1: well-formedness and decoding -/

/-- `<unknown>` is ill formed with a word of any defined row (R66): a full word, a format, a class-8 member, an E and an F
member. -/
theorem test_wf_refuses_unknown_of_a_row :
    (Instr.unknown 0x00E0).wf = false ∧ (Instr.unknown 0x00EE).wf = false ∧ (Instr.unknown 0x1ABC).wf = false ∧
    (Instr.unknown 0x5120).wf = false ∧ (Instr.unknown 0x8ABE).wf = false ∧ (Instr.unknown 0xE19E).wf = false ∧
    (Instr.unknown 0xF165).wf = false := by decide

/-- `<unknown>` is well formed with words of the unknown space (R66). -/
theorem test_wf_accepts_unknown :
    (Instr.unknown 0x0000).wf = true ∧ (Instr.unknown 0x5121).wf = true ∧ (Instr.unknown 0x8AB8).wf = true ∧
    (Instr.unknown 0xE19F).wf = true ∧ (Instr.unknown 0xFFFF).wf = true := by decide

/-- Screen and flow, jump, call (section 2.1). -/
theorem test_decode_flow :
    decode 0x00E0 = .cls ∧ decode 0x00EE = .ret ∧ decode 0x1ABC = .jpAddr 0xABC ∧ decode 0x2FFF = .callAddr 0xFFF ∧
    decode 0xB200 = .jpV0Addr 0x200 := by decide

/-- The comparing skips (section 2.1). -/
theorem test_decode_skips :
    decode 0x3A42 = .seVxByte 0xA 0x42 ∧ decode 0x4F00 = .sneVxByte 0xF 0x00 ∧ decode 0x5120 = .seVxVy 1 2 ∧
    decode 0x9120 = .sneVxVy 1 2 := by decide

/-- Loads, logic, arithmetic, shifts (section 2.1). -/
theorem test_decode_load_arith :
    decode 0x6C80 = .ldVxByte 0xC 0x80 ∧ decode 0x7001 = .addVxByte 0 1 ∧ decode 0x8AB0 = .ldVxVy 0xA 0xB ∧
    decode 0x8AB1 = .orVxVy 0xA 0xB ∧ decode 0x8AB2 = .andVxVy 0xA 0xB ∧ decode 0x8AB3 = .xorVxVy 0xA 0xB ∧
    decode 0x8AB4 = .addVxVy 0xA 0xB ∧ decode 0x8AB5 = .subVxVy 0xA 0xB ∧ decode 0x8AB6 = .shrVx 0xA 0xB ∧
    decode 0x8AB7 = .subnVxVy 0xA 0xB ∧ decode 0x8ABE = .shlVx 0xA 0xB ∧ decode 0xA123 = .ldIAddr 0x123 := by decide

/-- Random, draw, keys (section 2.1). -/
theorem test_decode_devices :
    decode 0xC1FF = .rndVxByte 1 0xFF ∧ decode 0xD125 = .drwVxVyNibble 1 2 5 ∧ decode 0xE19E = .skpVx 1 ∧
    decode 0xE1A1 = .sknpVx 1 := by decide

/-- Class F (section 2.1). -/
theorem test_decode_class_f :
    decode 0xF107 = .ldVxDT 1 ∧ decode 0xF10A = .ldVxK 1 ∧ decode 0xF115 = .ldDTVx 1 ∧ decode 0xF118 = .ldSTVx 1 ∧
    decode 0xF11E = .addIVx 1 ∧ decode 0xF129 = .ldFVx 1 ∧ decode 0xF133 = .ldBVx 1 ∧ decode 0xF155 = .ldMemVx 1 ∧
    decode 0xF165 = .ldVxMem 1 := by decide

/-- Words of the unknown space (section 2.1). -/
theorem test_decode_unknown :
    decode 0x0000 = .unknown 0x0000 ∧ decode 0x00E1 = .unknown 0x00E1 ∧ decode 0x0123 = .unknown 0x0123 ∧
    decode 0x5121 = .unknown 0x5121 ∧ decode 0x8AB8 = .unknown 0x8AB8 ∧ decode 0x8ABD = .unknown 0x8ABD ∧
    decode 0x8ABF = .unknown 0x8ABF ∧ decode 0x912F = .unknown 0x912F ∧ decode 0xE100 = .unknown 0xE100 ∧
    decode 0xF175 = .unknown 0xF175 ∧ decode 0xFFFF = .unknown 0xFFFF := by decide

/-- A byte string too short for a word is refused by name (R60). -/
theorem test_decode_truncated : decodeBytes [] = .error .truncated ∧ decodeBytes [0x00] = .error .truncated :=
  ⟨rfl, rfl⟩

/-- R65: no two rows of the opcode map share a word. -/
theorem test_rows_disjoint :
    opcodeRows.Pairwise fun a b => a.pattern &&& (a.mask &&& b.mask) ≠ b.pattern &&& (a.mask &&& b.mask) := by decide

/-! ### Part 2: single steps -/

/-- The reset state with `V0`, `V1` and `VF` set. -/
def withV (a b f : Byte) : State := ((State.reset.setV 0 a).setV 1 b).setV regVF f

/-- The state after one step of the word `w`; none if the step does not answer a next state. -/
def after (w : Nat) (s : State) : Option State :=
  match step (s.withFetchWord 16 w) with
  | .next t => some t
  | .fault _ => none
  | .refused _ => none

/-- `V0` and `VF` after one step. -/
def v0vf (w : Nat) (s : State) : Option (Byte × Byte) := (after w s).map fun t => (t.getV 0, t.getV regVF)

/-- `PC` after one step. -/
def pcOf (w : Nat) (s : State) : Option Word := (after w s).map State.pc

/-- `I` and `VF` after one step. -/
def ivf (w : Nat) (s : State) : Option (Word × Byte) := (after w s).map fun t => (t.i, t.getV regVF)

/-- `FAULT`, `PC` and `CYC` after one step. -/
def faultPc (w : Nat) (s : State) : Option (Option Fault × Word × Nat) :=
  (after w s).map fun t => (t.fault, t.pc, t.cyc.val)

/-- Section 2.2: `CALL`. -/
theorem test_call : ((after 0x2ABC State.reset).map fun t => (t.pc, t.sp, t.stack)) = some (0xABC, 1, [0x202]) := by
  decide

/-- The state an engine built with other parameters is in after reset. -/
def built (f : Params → Params) : State := State.resetWith (f Config.defaultParams)

/-- Section 2.2: `CALL` at full depth; R5, R14: a depth of 1, and the unbounded design. -/
theorem test_call_overflow :
    faultPc 0x2300 { State.reset with sp := 16 } = some (some .stackOverflow, 0x200, 0) ∧
    faultPc 0x2300 { built (fun p => { p with stackDepth := some 1 }) with sp := 1 } = some (some .stackOverflow, 0x200, 0) ∧
    faultPc 0x2300 { built (fun p => { p with stackDepth := none }) with sp := 16 } = some (none, 0x300, 1) := by decide

/-- Section 2.2: `RET`. -/
theorem test_ret :
    ((after 0x00EE { State.reset with pc := 0xABC, sp := 1, stack := [0x202] }).map fun t =>
      (t.pc, t.sp)) = some (0x202, 0) := by decide

/-- Section 2.2: `RET` on an empty stack; `CYC` unchanged. -/
theorem test_ret_underflow : faultPc 0x00EE State.reset = some (some .stackUnderflow, 0x200, 0) := by decide

/-- Section 2.2: `JP addr`, odd target. -/
theorem test_jp : pcOf 0x1201 State.reset = some 0x201 := by decide

/-- Section 2.2: `JP V0+addr`, not masked. -/
theorem test_jp_v0 : pcOf 0xBFFF (withV 0xFF 0 0) = some 0x10FE ∧ pcOf 0xB300 (withV 4 0 0) = some 0x304 := by decide

/-- Section 2.2: a fetch at 0x10FE, and at 0xFFF, whose second byte is out of range. -/
theorem test_fetch_fault :
    step { State.reset with pc := 0x10FE } = .next { State.reset with pc := 0x10FE, fault := some (.memoryFault .fetch 0x10FE) } ∧
    step { State.reset with pc := 0xFFF } = .next { State.reset with pc := 0xFFF, fault := some (.memoryFault .fetch 0x1000) } :=
  ⟨rfl, rfl⟩

/-- Section 2.2: `CLS`. -/
theorem test_cls :
    ((after 0x00E0 { State.reset with fb := togglePixel Config.defaultParams.fbInit 3 4 }).map fun t => pixelActive t.fb 3 4) =
      some false := by decide

/-- Section 2.3: `SE Vx,byte`, `SNE Vx,byte`. -/
theorem test_skip_byte :
    pcOf 0x3142 (withV 0 0x42 0) = some 0x204 ∧ pcOf 0x3142 (withV 0 0x43 0) = some 0x202 ∧
    pcOf 0x4142 (withV 0 0x42 0) = some 0x202 ∧ pcOf 0x4142 (withV 0 0x43 0) = some 0x204 := by decide

/-- Section 2.3: `SE Vx,Vy`, `SNE Vx,Vy`. -/
theorem test_skip_reg :
    pcOf 0x5120 (withV 0 0 0) = some 0x204 ∧ pcOf 0x5120 (withV 0 1 0) = some 0x202 ∧
    pcOf 0x9120 (withV 0 1 0) = some 0x204 ∧ pcOf 0x9110 (withV 0 1 0) = some 0x202 ∧
    pcOf 0x9121 (withV 0 1 0) = some 0x202 := by decide

/-- Section 2.4: `LD Vx,byte`, with `VF` as an ordinary destination, and `LD Vx,Vy`. -/
theorem test_load : v0vf 0x60FF (withV 0x12 0 0) = some (0xFF, 0) ∧ v0vf 0x6F00 (withV 0 0 1) = some (0, 0) ∧
    v0vf 0x8010 (withV 0 0x2A 0) = some (0x2A, 0) := by decide

/-- Section 2.4: `OR`, `AND`, `XOR` leave `VF`. -/
theorem test_logic : v0vf 0x8011 (withV 0xF0 0x0F 1) = some (0xFF, 1) ∧ v0vf 0x8012 (withV 0xF0 0x3C 1) = some (0x30, 1) ∧
    v0vf 0x8013 (withV 0xFF 0x0F 1) = some (0xF0, 1) := by decide

/-- Section 2.4: `LD I,addr`. -/
theorem test_ld_i : ivf 0xAFFF (withV 0 0 1) = some (0xFFF, 1) := by decide

/-- Section 2.5: `ADD Vx,byte`. -/
theorem test_add_byte : v0vf 0x7002 (withV 0xFF 0 1) = some (0x01, 1) ∧ v0vf 0x70F0 (withV 0x10 0 0) = some (0, 0) := by
  decide

/-- W2 and section 2.5: `ADD Vx,Vy`. -/
theorem test_add : v0vf 0x8014 (withV 0xFF 0x01 0) = some (0, 1) ∧ v0vf 0x8014 (withV 0x80 0x7F 1) = some (0xFF, 0) := by
  decide

/-- W3 and section 2.5: `SUB Vx,Vy`. -/
theorem test_sub : v0vf 0x8015 (withV 3 5 1) = some (0xFE, 0) ∧ v0vf 0x8015 (withV 7 7 1) = some (0, 0) ∧
    v0vf 0x8015 (withV 0x80 0x7F 0) = some (1, 1) := by decide

/-- Section 2.5: `SUBN Vx,Vy`. -/
theorem test_subn : v0vf 0x8017 (withV 3 5 0) = some (2, 1) ∧ v0vf 0x8017 (withV 7 7 1) = some (0, 0) := by decide

/-- W4 and section 2.5: `SHR`, the field `y` ignored. -/
theorem test_shr : v0vf 0x8006 (withV 0x01 0 0) = some (0, 1) ∧ v0vf 0x80F6 (withV 0x7E 0 1) = some (0x3F, 0) := by decide

/-- W4 and section 2.5: `SHL`. -/
theorem test_shl : v0vf 0x800E (withV 0x80 0 0) = some (0, 1) ∧ v0vf 0x800E (withV 0x7E 0 1) = some (0xFC, 0) := by decide

/-- Section 2.5, destination `VF`: the flag is written last, and the old `VF` is the operand. -/
theorem test_flag_last : v0vf 0x8F14 (withV 0 1 0xFF) = some (0, 1) ∧ v0vf 0x8F15 (withV 0 3 5) = some (0, 1) ∧
    v0vf 0x8F06 (withV 0 0 3) = some (0, 1) ∧ v0vf 0x80F4 (withV 0xFF 0 1) = some (0, 1) := by decide

/-- Section 2.5: `ADD I,Vx` at the limit of the range, wrapping, and (R103) the limit with `ADDI_STRICT` false. -/
theorem test_add_i : ivf 0xF01E { withV 1 0 1 with i := 0xFFF } = some (0x1000, 0) ∧
    ivf 0xF01E { withV 2 0 0 with i := 0xFFF } = some (0x1001, 1) ∧
    ivf 0xF01E { withV 1 0 0 with i := 0xFFFF } = some (0, 1) ∧
    ivf 0xF01E { (built fun p => { p with addiStrict := false }).setV 0 1 with i := 0xFFF } = some (0x1000, 1) := by decide

/-- Section 2.6: `RND` with 0xA7. -/
theorem test_rnd : v0vf 0xC00F { State.reset with env := [⟨0xA7, false, none⟩] } = some (0x07, 0) ∧
    v0vf 0xC0F0 { State.reset with env := [⟨0xA7, false, none⟩] } = some (0xA0, 0) := by decide

/-- The pixels (columns `xs` of row `y`) and `VF` after one step. -/
def screenVF (w : Nat) (s : State) (xs : List (Fin 64)) (y : Fin 32) : Option (List Bool × Byte) :=
  (after w s).map fun t => (xs.map fun x => pixelActive t.fb x y, t.getV regVF)

/-- A state about to draw `bytes` at 0x300. -/
def drawing (a b : Byte) (bytes : List Byte) : State :=
  { withV a b 0 with i := 0x300, mem := Memory.writeBytes Config.defaultParams [] 0x300 bytes }

/-- Section 2.6: bit 7 leftmost; clipped at the right edge; collision; only the drawn rows are checked. -/
theorem test_draw : screenVF 0xD011 (drawing 0 0 [0xF0]) [0, 3, 4] 0 = some ([true, true, false], 0) ∧
    screenVF 0xD011 (drawing 60 0 [0xFF]) [59, 60, 63, 0] 0 = some ([false, true, true, false], 0) ∧
    screenVF 0xD011 { drawing 0 0 [0xC0] with fb := togglePixel Config.defaultParams.fbInit 1 0 } [0, 1] 0 = some ([true, false], 1) ∧
    screenVF 0xD012 { withV 0 31 0 with i := 0xFFF, mem := [(0xFFF, 0x80)] } [0, 1] 31 = some ([true, false], 0) := by decide

/-- Section 2.6: the read fault of a row above 0xFFF. -/
theorem test_draw_fault : faultPc 0xD012 { withV 0 0 1 with i := 0xFFF } = some (some (.memoryFault .read 0x1000), 0x200, 0) ∧
    faultPc 0xD011 { withV 0 0 1 with i := 0x1234 } = some (some (.memoryFault .read 0x1234), 0x200, 0) := by decide

/-- Section 2.7: `SKP` and `SKNP`, with an index outside the keypad. -/
theorem test_skp : pcOf 0xE19E { withV 0 5 0 with env := [⟨0, true, none⟩] } = some 0x204 ∧
    pcOf 0xE19E { withV 0 5 0 with env := [⟨0, false, none⟩] } = some 0x202 ∧
    pcOf 0xE19E { withV 0 0x20 0 with env := [⟨0, true, none⟩] } = some 0x202 := by decide

/-- Section 2.7: `SKNP`. -/
theorem test_sknp : pcOf 0xE1A1 { withV 0 5 0 with env := [⟨0, true, none⟩] } = some 0x202 ∧
    pcOf 0xE1A1 { withV 0 5 0 with env := [⟨0, false, none⟩] } = some 0x204 ∧
    pcOf 0xE1A1 { withV 0 0x20 0 with env := [⟨0, true, none⟩] } = some 0x204 := by decide

/-- A state with `V1`, `CYC` and the timers set. -/
def timing (b : Byte) (c : Fin 3) (d e : Byte) : State := { withV 0 b 0 with cyc := c, dt := d, st := e }

/-- `V1`, `DT`, `ST` and `CYC` after one step. -/
def timersOf (w : Nat) (s : State) : Option (Byte × Byte × Byte × Nat) :=
  (after w s).map fun t => (t.getV 1, t.dt, t.st, t.cyc.val)

/-- Section 2.7: the timer phase comes first; the floor. -/
theorem test_ld_vx_dt : timersOf 0xF107 (timing 0 0 9 0) = some (9, 9, 0, 1) ∧
    timersOf 0xF107 (timing 0 2 9 0) = some (8, 8, 0, 0) ∧ timersOf 0xF107 (timing 0 2 0 0) = some (0, 0, 0, 0) := by decide

/-- Section 2.7: `LD DT,Vx` and `LD ST,Vx`. -/
theorem test_ld_timers : timersOf 0xF115 (timing 7 2 3 1) = some (7, 7, 0, 0) ∧
    timersOf 0xF118 (timing 7 2 3 1) = some (7, 2, 7, 0) := by decide

/-- Section 2.7: `LD Vx,K` without and with a key. -/
theorem test_ld_vx_k :
    ((after 0xF10A { State.reset with env := [⟨0, false, none⟩] }).map fun t => (t.pc, t.getV 1, t.cyc.val)) =
      some (0x200, 0, 1) ∧
    ((after 0xF10A { State.reset with env := [⟨0, false, some 0x0B⟩] }).map fun t => (t.pc, t.getV 1)) =
      some (0x202, 0x0B) := by decide

/-- W6 and section 2.8: `LD F,Vx`. -/
theorem test_font : ivf 0xF029 (withV 0x0A 0 0) = some (0x82, 0) ∧ ivf 0xF029 (withV 0xFF 0 0) = some (0x54B, 0) := by decide

/-- Bytes of memory after one step. -/
def bytesAt (w : Nat) (s : State) (as : List Nat) : Option (List Byte) := (after w s).map fun t => as.map t.byteAt

/-- W5 and section 2.8: `LD B,Vx`, up to the last byte. -/
theorem test_bcd : bytesAt 0xF033 { withV 123 0 0 with i := 0x300 } [0x300, 0x301, 0x302] = some [1, 2, 3] ∧
    bytesAt 0xF033 { withV 255 0 0 with i := 0xFFD } [0xFFD, 0xFFE, 0xFFF] = some [2, 5, 5] := by decide

/-- Section 2.8: `LD B,Vx` out of range stores nothing. -/
theorem test_bcd_fault : faultPc 0xF033 { withV 255 0 0 with i := 0xFFE } = some (some (.memoryFault .write 0x1000), 0x200, 0) ∧
    bytesAt 0xF033 { withV 255 0 0 with i := 0xFFE } [0xFFE, 0xFFF] = some [0, 0] := by decide

/-- Section 2.8: `LD [I],Vx`, and a store over the font. -/
theorem test_store : bytesAt 0xF155 { withV 0xAA 0xBB 0 with i := 0x300 } [0x300, 0x301, 0x302] = some [0xAA, 0xBB, 0] ∧
    bytesAt 0xF055 { State.reset with i := 0x52 } [0x51, 0x52] = some [0x90, 0] := by decide

/-- Section 2.8: `LD [I],Vx` out of range stores nothing. -/
theorem test_store_fault : faultPc 0xF155 { withV 1 1 0 with i := 0xFFF } = some (some (.memoryFault .write 0x1000), 0x200, 0) ∧
    bytesAt 0xF155 { withV 1 1 0 with i := 0xFFF } [0xFFF] = some [0] := by decide

/-- Section 2.8: `LD Vx,[I]` from the font; R41: across its end into `MEM_INIT`, here 0xAA. -/
theorem test_load_block :
    ((after 0xF465 { State.reset with i := 0x50 }).map fun t => (([0, 1, 2, 3, 4] : List Reg).map t.getV, t.i)) =
      some ([0xF0, 0x90, 0x90, 0x90, 0xF0], 0x50) ∧
    ((after 0xF165 { built (fun p => { p with memInit := 0xAA }) with i := 0x9F }).map fun t => (t.getV 0, t.getV 1)) =
      some (0x80, 0xAA) := by decide

/-- Section 2.8: `LD Vx,[I]` out of range. -/
theorem test_load_block_fault :
    faultPc 0xF065 { State.reset with i := 0x2000 } = some (some (.memoryFault .read 0x2000), 0x200, 0) := by decide

/-- Section 2.9: `<unknown>` runs the timer phase and no more. -/
theorem test_unknown :
    ((after 0x0000 (timing 5 2 1 0)).map fun t => (t.pc, t.cyc.val, t.dt, t.v)) = some (0x202, 0, 0, (timing 5 2 1 0).v) := by
  decide

/-- Section 2.9: a halted engine. -/
theorem test_halted (s : State) : step { s with fault := some .stackUnderflow } = .next { s with fault := some .stackUnderflow } :=
  rfl

/-- R70: the fields of a word are extracted whether or not the operation uses them. -/
theorem test_standalone_decode :
    standaloneDecode 0x912F = ⟨"<unknown>", 0x9, 0x1, 0x2, 0xF, 0x2F, 0x12F⟩ := by decide

/-! ### Part 3: the hypotheses of the obligations are met -/

/-- The state with the word `w` where the next step fetches it. -/
def at200 (w : Nat) (s : State) : State := s.withFetchWord 16 w

/-- DecodeEncodeRoundTrip, DecodeBytesConsumesTwo (and UnknownDoesNothing, whose words these are): a row, and `<unknown>` at both ends of the word range. -/
theorem witness_wf :
    (Instr.drwVxVyNibble 1 2 5).wf = true ∧ (Instr.unknown 0x0000).wf = true ∧ (Instr.unknown 0xFFFF).wf = true := by decide

/-- ReturnPopsTheStack: one entry, and a full stack. -/
theorem witness_ret : 0 < ({ State.reset with sp := 1 } : State).sp ∧ 0 < ({ State.reset with sp := 16 } : State).sp := by
  decide

/-- ReturnOnEmptyStackHalts. -/
theorem witness_ret_empty : State.reset.sp = 0 := by decide

/-- CallPushesReturnAddress: an empty stack, one entry below full depth, and a deep stack of the unbounded design. -/
theorem witness_call : State.reset.params.stackDepth ≠ some State.reset.sp ∧
    (let s : State := { State.reset with sp := 15 }; s.params.stackDepth ≠ some s.sp) ∧
    (let s : State := { built (fun p => { p with stackDepth := none }) with sp := 1000 }; s.params.stackDepth ≠ some s.sp) := by
  decide

/-- CallAtFullDepthHalts. -/
theorem witness_call_full :
    ({ State.reset with sp := 16 } : State).params.stackDepth = some ({ State.reset with sp := 16 } : State).sp := by decide

/-- ReturnUndoesCall, at 15 entries in use: the `RET` right after the `CALL`. -/
theorem witness_call_ret : ∃ (nnn : Addr) (s t u : State), exec (.callAddr nnn) s = .next t ∧
    s.params.stackDepth ≠ some s.sp ∧ u.sp = t.sp ∧ u.entry s.sp = t.entry s.sp :=
  ⟨0x300, { State.reset with sp := 15 }, _, _, rfl, by decide, rfl, rfl⟩

/-- AddSubtractResultsAndFlags, ShiftsByOneAndFlags: a destination other than `VF`; `VF` itself is the other clause. -/
theorem witness_not_vf : (0xE : Reg) ≠ regVF ∧ ¬(0xF : Reg) ≠ regVF := by decide

/-- DrawFlipsSpritePixels: no row; one row at the last byte of memory, clipped; a whole sprite up to the last byte. -/
theorem witness_draw : rowsRead State.reset 1 0 = 0 ∧
    (let s : State := { withV 0 31 0 with i := 0xFFF }; rowsRead s 1 2 = 1 ∧ s.i.toNat + rowsRead s 1 2 ≤ 0x1000) ∧
    (let s : State := { withV 0 0 0 with i := 0xFF1 }; rowsRead s 1 15 = 15 ∧ s.i.toNat + rowsRead s 1 15 ≤ 0x1000) := by
  decide

/-- DrawOutOfMemoryHalts: one row too many, and a base out of range. -/
theorem witness_draw_fault :
    (let s : State := { withV 0 0 0 with i := 0xFFF }; 0 < rowsRead s 1 2 ∧ s.i.toNat + rowsRead s 1 2 > 0x1000) ∧
    (let s : State := { withV 0 0 0 with i := 0x1000 }; 0 < rowsRead s 1 1 ∧ s.i.toNat + rowsRead s 1 1 > 0x1000) := by
  decide

/-- DrawingTwiceRestoresScreen: glyph 0 at the origin. -/
theorem witness_draw_twice : ∃ (x y : Reg) (n : Nibble) (s t u : State), x ≠ regVF ∧ y ≠ regVF ∧
    (rowsRead s y n = 0 ∨ s.i.toNat + rowsRead s y n ≤ 0x1000) ∧
    exec (.drwVxVyNibble x y n) s = .next t ∧ exec (.drwVxVyNibble x y n) t = .next u :=
  ⟨0, 1, 5, { State.reset with i := 0x50 }, _, _, by decide, by decide, Or.inr (by decide), rfl, rfl⟩

/-- KeySkips: a pressed key, a key not pressed, and an index of 16. -/
theorem witness_keys :
    (let s : State := { withV 0 15 0 with env := [⟨0, true, none⟩] };
      (s.getV 1).toNat < s.params.nkeys ∧ s.inputs.keyPressed = true) ∧
    (let s : State := { withV 0 15 0 with env := [⟨0, false, none⟩] }; ¬s.inputs.keyPressed = true) ∧
    (let s : State := { withV 0 16 0 with env := [⟨0, true, none⟩] }; ¬(s.getV 1).toNat < s.params.nkeys) := by decide

/-- KeyWaitStoresOrRetries: the last key, none, and an index that is no key's. -/
theorem witness_key_wait :
    (let s : State := { State.reset with env := [⟨0, false, some 15⟩] }; keyIndexAnswer s.params s.inputs = some 15) ∧
    (let s : State := { State.reset with env := [⟨0, false, none⟩] }; keyIndexAnswer s.params s.inputs = none) ∧
    (let s : State := { State.reset with env := [⟨0, false, some 16⟩] }; keyIndexAnswer s.params s.inputs = none) := by decide

/-- KeyWaitSuspends: P5 of 95_test_vectors.md, two steps without a key, then key 7. -/
theorem witness_key_wait_suspends : ∃ (n : Nat) (x : Reg) (w : Word) (s : State) (key : Byte),
    s.fault = none ∧ s.fetchWord = .ok w ∧ decode w = .ldVxK x ∧
    (∀ k : Nat, k < n → keyIndexAnswer s.params (s.inputsAt k) = none) ∧ keyIndexAnswer s.params (s.inputsAt n) = some key :=
  ⟨2, 5, 0xF50A,
    at200 0xF50A { State.reset with env := [⟨0, false, none⟩, ⟨0, false, none⟩, ⟨0, false, some 7⟩] }, 7, rfl, rfl, rfl, by decide, rfl⟩

/-- BcdStoresThreeDigits: the last base in range, and the first out of range. -/
theorem witness_bcd :
    (∃ s : State, s.MemoryCanonical ∧ s.i.toNat + 2 = 0xFFF) ∧ (∃ s : State, s.i.toNat + 2 = 0x1000) :=
  ⟨⟨{ State.reset with i := 0xFFD }, rfl, by decide⟩, ⟨{ State.reset with i := 0xFFE }, by decide⟩⟩

/-- BlockStoreCopiesRegisters, BlockLoadFillsRegisters: `x` = 0 and 15 at the last base in range and the first out of it. -/
theorem witness_blocks :
    (∃ s : State, s.MemoryCanonical ∧ s.i.toNat + (0 : Reg).toNat = 0xFFF) ∧
    (∃ s : State, s.MemoryCanonical ∧ s.i.toNat + (15 : Reg).toNat = 0xFFF) ∧
    (∃ s : State, s.i.toNat + (0 : Reg).toNat = 0x1000) ∧ (∃ s : State, s.i.toNat + (15 : Reg).toNat = 0x1000) :=
  ⟨⟨{ State.reset with i := 0xFFF }, rfl, by decide⟩, ⟨{ State.reset with i := 0xFF0 }, rfl, by decide⟩,
    ⟨{ State.reset with i := 0x1000 }, by decide⟩, ⟨{ State.reset with i := 0xFF1 }, by decide⟩⟩

/-- StepRunsDecodedInstruction, at 0x200 and at the last address a word can be fetched from. -/
theorem witness_step :
    (∃ (s : State) (i : Instr), s.fault = none ∧ s.pc.toNat ≤ 0xFFE ∧ i.wf = true ∧
      [s.byteAt s.pc.toNat, s.byteAt (s.pc.toNat + 1)] = encodeBytes i) ∧
    (∃ (s : State) (i : Instr), s.fault = none ∧ s.pc.toNat = 0xFFE ∧ i.wf = true ∧
      [s.byteAt s.pc.toNat, s.byteAt (s.pc.toNat + 1)] = encodeBytes i) :=
  ⟨⟨at200 0x8014 State.reset, .addVxVy 0 1, by decide, by decide, by decide, by decide⟩,
    ⟨at200 0xD125 { State.reset with pc := 0xFFE }, .drwVxVyNibble 1 2 5, by decide, by decide, by decide, by decide⟩⟩

/-- FetchBeyondMemoryHalts, StepFaultsExactlyAsListed: the two lowest addresses and the highest. -/
theorem witness_fetch_fault :
    (let s : State := { State.reset with pc := 0xFFF }; s.fault = none ∧ s.pc.toNat > 0xFFE) ∧
    (let s : State := { State.reset with pc := 0x1000 }; s.fault = none ∧ s.pc.toNat > 0xFFE) ∧
    (let s : State := { State.reset with pc := 0xFFFF }; s.fault = none ∧ s.pc.toNat > 0xFFE) := by decide

/-- HaltedEngineNeverChanges. -/
theorem witness_halted : ({ State.reset with fault := some .programTooLarge } : State).fault ≠ none := by decide

/-- FaultsArePrecise: `RET` on an empty stack, with a timer phase due. -/
theorem witness_fault_precise : ∃ s t : State, s.fault = none ∧ step s = .next t ∧ t.fault ≠ none :=
  ⟨at200 0x00EE (timing 0 2 9 9), _, rfl, rfl, by decide⟩

/-- PcAfterEveryInstruction: `JP V0+addr` to 0x10FE and a skip taken at 0xFFE to 0x1002, the highest values of the two
bounds; and a step that faults. -/
theorem witness_pc_after :
    (∃ (s : State) (w : Word), s.fault = none ∧ s.fetchWord = .ok w ∧ faultOf (decode w) s = none ∧ decode w ≠ .ret ∧
      pcAfter (decode w) s = 0x10FE) ∧
    (∃ (s : State) (w : Word), s.fault = none ∧ s.fetchWord = .ok w ∧ faultOf (decode w) s = none ∧ decode w ≠ .ret ∧
      (∀ nnn, decode w ≠ .jpV0Addr nnn) ∧ pcAfter (decode w) s = 0x1002) ∧
    (∃ (s : State) (w : Word), s.fault = none ∧ s.fetchWord = .ok w ∧ faultOf (decode w) s ≠ none) := by
  refine ⟨⟨at200 0xBFFF (withV 0xFF 0 0), 0xBFFF, rfl, rfl, by decide, by decide, by decide⟩,
    ⟨at200 0x3100 { State.reset with pc := 0xFFE }, 0x3100, rfl, rfl, by decide, by decide, ?_, by decide⟩,
    ⟨at200 0x2300 { State.reset with sp := 16 }, 0x2300, rfl, rfl, by decide⟩⟩
  intro nnn h
  exact Instr.noConfusion (h : Instr.seVxByte 1 0 = .jpV0Addr nnn)

/-- TimerPhaseInEveryStep, CommittedStepDrawsInputs: a step in which the timers are decremented. -/
theorem witness_timer_phase : ∃ (s t : State) (w : Word), s.fault = none ∧ s.fetchWord = .ok w ∧ step s = .next t ∧
    t.fault = none ∧ (∀ x, decode w ≠ .ldDTVx x) ∧ (∀ x, decode w ≠ .ldSTVx x) ∧ (s.cyc.val + 1) % 3 = 0 :=
  ⟨at200 0x0000 (timing 0 2 9 0), _, 0x0000, rfl, rfl, rfl, rfl, by decide, by decide, by decide⟩

/-- ThreeStepsDecrementOnce: three `<unknown>` words from `CYC` = 1. -/
theorem witness_three_steps : ∃ a b c d : State, step a = .next b ∧ step b = .next c ∧ step c = .next d ∧ a.fault = none ∧
    d.fault = none ∧
    (∀ s ∈ [a, b, c], ∀ (w : Word) (x : Reg), s.fetchWord = .ok w → decode w ≠ .ldDTVx x ∧ decode w ≠ .ldSTVx x) := by
  refine ⟨timing 0 1 2 1, _, _, _, rfl, rfl, rfl, rfl, rfl, ?_⟩
  intro s hs w x hw
  have h0 : s.fetchWord = .ok 0x0000 := by
    simp only [List.mem_cons, List.not_mem_nil, or_false] at hs
    rcases hs with rfl | rfl | rfl <;> rfl
  cases h0.symm.trans hw
  exact ⟨by revert x; decide, by revert x; decide⟩

/-- FetchIsBigEndian: the last address a word can be fetched from, and the last two bytes of the largest program. -/
theorem witness_fetch :
    ({ State.reset with pc := 0xFFE } : State).pc.toNat ≤ 0xFFE ∧
    ∃ (bytes : List Byte) (hi lo : Byte), bytes.length ≤ 3584 ∧ bytes[3582]? = some hi ∧ bytes[3582 + 1]? = some lo :=
  ⟨by decide, List.replicate 3584 0x12, 0x12, 0x12, by rw [List.length_replicate],
    by rw [List.getElem?_replicate]; decide, by rw [List.getElem?_replicate]; decide⟩

/-- TimersWrittenAndReadAsListed: `LD DT,V1`, `LD ST,V1` and `LD V1,DT`, each in a step whose timer phase is due. -/
theorem witness_timers :
    (∃ s t : State, s.fault = none ∧ s.fetchWord = .ok 0xF115 ∧ step s = .next t ∧ decode 0xF115 = .ldDTVx 1 ∧ t.dt ≠ s.dt ∧
      t.st ≠ s.st) ∧
    (∃ s t : State, s.fault = none ∧ s.fetchWord = .ok 0xF118 ∧ step s = .next t ∧ decode 0xF118 = .ldSTVx 1 ∧ t.dt ≠ s.dt ∧
      t.st ≠ s.st) ∧
    (∃ s t : State, s.fault = none ∧ s.fetchWord = .ok 0xF107 ∧ step s = .next t ∧ decode 0xF107 = .ldVxDT 1 ∧
      t.getV 1 ≠ s.dt) :=
  ⟨⟨at200 0xF115 (timing 7 2 9 9), _, rfl, rfl, rfl, by decide, by decide, by decide⟩,
    ⟨at200 0xF118 (timing 7 2 9 9), _, rfl, rfl, rfl, by decide, by decide, by decide⟩,
    ⟨at200 0xF107 (timing 7 2 9 9), _, rfl, rfl, rfl, by decide, by decide⟩⟩

/-- ThreeStepsDecrementOnce, the clause over any number of steps: two `<unknown>` words from `CYC` = 1, of which the second
decrements. -/
theorem witness_many_steps : ∃ (n : Nat) (s t : State), Host.Core.run Sys2Proof.core n s = .next t ∧ t.fault = none ∧
    decrementsIn s.cyc n = 1 ∧ ∀ (k : Nat) (u : State) (w : Word) (x : Reg), k < n →
      Host.Core.run Sys2Proof.core k s = .next u → u.fetchWord = .ok w → decode w ≠ .ldDTVx x ∧ decode w ≠ .ldSTVx x := by
  refine ⟨2, timing 0 1 2 1, _, rfl, rfl, rfl, ?_⟩
  intro k u w x hk hu hw
  have h0 : u.fetchWord = .ok 0x0000 := by
    have hk2 : k = 0 ∨ k = 1 := by omega
    rcases hk2 with rfl | rfl <;> cases hu <;> rfl
  cases h0.symm.trans hw
  exact ⟨by revert x; decide, by revert x; decide⟩

/-- OnlyDestinationsChange: `LD V3,7`. -/
theorem witness_destination : ∃ (s t : State) (w : Word) (r : Reg), s.fault = none ∧ s.fetchWord = .ok w ∧
    step s = .next t ∧ t.getV r ≠ s.getV r :=
  ⟨at200 0x6307 State.reset, _, 0x6307, 3, rfl, rfl, rfl, by decide⟩

/-- OnlyIndexWritersChangeIndex: `LD I,0x123`. -/
theorem witness_index : ∃ (s t : State) (w : Word), s.fault = none ∧ s.fetchWord = .ok w ∧ step s = .next t ∧ t.i ≠ s.i :=
  ⟨at200 0xA123 State.reset, _, 0xA123, rfl, rfl, rfl, by decide⟩

/-- OnlyStoresChangeMemory: the last byte of a `LD [I],V1`. -/
theorem witness_store : ∃ (s t : State) (w : Word) (a : Nat), s.fault = none ∧ s.fetchWord = .ok w ∧ step s = .next t ∧
    t.byteAt a ≠ s.byteAt a :=
  ⟨at200 0xF155 { withV 1 2 0 with i := 0xFFE }, _, 0xF155, 0xFFF, rfl, rfl, rfl, by decide⟩

/-- OnlyCallAndReturnTouchStack: a `CALL` that fills the stack, with entries in use. -/
theorem witness_stack : ∃ (s t : State) (w : Word), s.fault = none ∧ s.fetchWord = .ok w ∧ step s = .next t ∧
    t.sp ≠ s.sp ∧ t.stack ≠ s.stack ∧ 0 < s.sp ∧ s.params.stackDepth = some 16 ∧ s.StackBounded ∧ t.sp = 16 :=
  ⟨at200 0x2300 { State.reset with sp := 15, stack := List.replicate 15 0x202 }, _, 0x2300, rfl, rfl, rfl, by decide,
    by decide, by decide, rfl, fun _ h => by cases h; decide, rfl⟩

/-- OnlyClearAndDrawChangeScreen: `CLS` with a pixel on. -/
theorem witness_screen : ∃ (s t : State) (w : Word) (px : Fin 64) (py : Fin 32), s.fault = none ∧ s.fetchWord = .ok w ∧
    step s = .next t ∧ pixelActive t.fb px py ≠ pixelActive s.fb px py :=
  ⟨at200 0x00E0 { State.reset with fb := togglePixel Config.defaultParams.fbInit 63 31 }, _, 0x00E0, 63, 31, rfl, rfl, rfl, by decide⟩

/-- NextFetchSeesStore: the program P6 of 95_test_vectors.md at its store. -/
theorem witness_next_fetch : ∃ (s : State) (w : Word) (x : Reg), s.fault = none ∧ s.MemoryCanonical ∧ s.fetchWord = .ok w ∧
    decode w = .ldMemVx x ∧ 1 ≤ x.toNat ∧ s.i = s.pc + 2 ∧ s.i.toNat + x.toNat ≤ 0xFFF :=
  ⟨at200 0xF155 { withV 0x12 0x08 0 with i := 0x208, pc := 0x206 }, 0xF155, 1, rfl, by unfold State.MemoryCanonical; decide,
    rfl, rfl, by decide, by decide, by decide⟩

/-- StepKeepsMemoryCanonical, StepKeepsPcBounded: a step that stores, and a `RET` to the highest address a `CALL` pushes. -/
theorem witness_invariants :
    (∃ s t : State, s.MemoryCanonical ∧ step s = .next t ∧ t.mem ≠ s.mem) ∧
    (∃ s t : State, s.PcBounded ∧ step s = .next t ∧ t.pc.toNat = 0x1000) := by
  refine ⟨⟨at200 0xF155 { withV 1 2 0 with i := 0xFFE }, _, by unfold State.MemoryCanonical; decide, rfl, by decide⟩,
    ⟨at200 0x00EE { State.reset with sp := 1, stack := [0x1000] }, _, ⟨by decide, ?_⟩, rfl, by decide⟩⟩
  intro k hk
  have h : k = 0 := Nat.lt_one_iff.mp hk
  subst h
  decide

/-- FinishedProgramStaysFinished: a `JP` to itself at 0x200 and at 0xFFE. -/
theorem witness_finished : (at200 0x1200 State.reset).Finished ∧ (at200 0x1FFE { State.reset with pc := 0xFFE }).Finished :=
  ⟨⟨rfl, by decide, rfl⟩, ⟨rfl, by decide, rfl⟩⟩

/-- LoadCopiesProgram: the largest program, on the reset state, whose memory is canonical and whose `PC` is 0x200. -/
theorem witness_load : State.reset.loadAccepted = true ∧ State.reset.MemoryCanonical ∧ State.reset.pc = 0x200 ∧
    ∃ (hi lo : Byte) (rest : List Byte), (hi :: lo :: rest).length = 3584 :=
  ⟨rfl, rfl, rfl, 0x12, 0x00, List.replicate 3582 0, by rw [List.length_cons, List.length_cons, List.length_replicate]⟩

/-- OversizeLoadHalts: one byte more. -/
theorem witness_oversize : State.reset.loadAccepted = true ∧ (List.replicate 3585 (0x12 : Byte)).length > 3584 :=
  ⟨rfl, by rw [List.length_replicate]; decide⟩

/-- LaterLoadsAreIgnored: the step after a load. -/
theorem witness_later_load : ∃ s t : State, s.fault = none ∧ step s = .next t ∧ s.loadOpen = true :=
  ⟨at200 0x6007 State.reset, _, rfl, rfl, rfl⟩

/-- PlacedWordRunsNext: reset, and a halted engine whose `PC` cannot be fetched from. -/
theorem witness_placed : State.reset.MemoryCanonical ∧
    ({ State.reset with pc := 0x1000, fault := some .stackOverflow } : State).MemoryCanonical := ⟨rfl, rfl⟩

end Sys2Proof.Tests
end

section
/-! SUPPORT. Decoding undoes encoding (30_encoding.md R64, R65): each format's word decodes by its class, and the
`<unknown>` space is what no row of the opcode map accepts (R66). -/

namespace Sys2Proof

open Sys2Proof.Laws

/-! ### Encoding the decoded word gives the word back -/

theorem encode_decodeClass8 (w : Word) (hc : fieldC w = 0x8#4) : encode (decodeClass8 w) = w := by
  have hw := wordXY_fields w
  rw [hc] at hw
  unfold decodeClass8
  split
  case h_10 => rfl
  all_goals next hn => rw [hn] at hw; exact hw

theorem encode_decodeClassE (w : Word) (hc : fieldC w = 0xE#4) : encode (decodeClassE w) = w := by
  have hw := wordXK_fields w
  rw [hc] at hw
  unfold decodeClassE
  split
  case h_3 => rfl
  all_goals next hk => rw [hk] at hw; exact hw

theorem encode_decodeClassF (w : Word) (hc : fieldC w = 0xF#4) : encode (decodeClassF w) = w := by
  have hw := wordXK_fields w
  rw [hc] at hw
  unfold decodeClassF
  split
  case h_10 => rfl
  all_goals next hk => rw [hk] at hw; exact hw

/-- A class whose member is fixed by a zero low nibble (R64, R66). -/
theorem encode_ite_fieldN (w : Word) (i : Instr) (hi : fieldN w = 0 → encode i = w) :
    encode (if fieldN w = 0 then i else .unknown w) = w := by
  split
  · next hn => exact hi hn
  · rfl

theorem encode_decodeByClass (w : Word) : encode (decodeByClass w) = w := by
  have hA := wordA_fields w
  have hXK := wordXK_fields w
  have hXY := wordXY_fields w
  unfold decodeByClass
  split
  case h_1 => rfl
  case h_6 hc => rw [hc] at hXY; exact encode_ite_fieldN w _ fun hn => by rw [hn] at hXY; exact hXY
  case h_9 hc => exact encode_decodeClass8 w hc
  case h_10 hc => rw [hc] at hXY; exact encode_ite_fieldN w _ fun hn => by rw [hn] at hXY; exact hXY
  case h_14 hc => rw [hc] at hXY; exact hXY
  case h_15 hc => exact encode_decodeClassE w hc
  case h_16 =>
    have hc : fieldC w = 0xF#4 := by
      clear hA hXK hXY
      generalize fieldC w = c at *
      decide +revert
    exact encode_decodeClassF w hc
  case h_2 hc | h_3 hc | h_11 hc | h_12 hc => rw [hc] at hA; exact hA
  case h_4 hc | h_5 hc | h_7 hc | h_8 hc | h_13 hc => rw [hc] at hXK; exact hXK

/-- The decoder drops no bit of a word (R64, R65). -/
theorem encode_decode (w : Word) : encode (decode w) = w := by
  unfold decode
  split
  · next h => exact h.symm
  · split
    · next h => exact h.symm
    · exact encode_decodeByClass w

/-! ### The `<unknown>` space -/

/-- The word of every instruction matches the instruction's row under its mask (R65). -/
theorem encode_matches_rowOf (i : Instr) : EncodesRow.Statement i := by
  cases i with
  | cls => exact EncodesRow.cls
  | ret => exact EncodesRow.ret
  | unknown w => exact EncodesRow.unknown w
  | jpAddr | callAddr | ldIAddr | jpV0Addr => exact wordA_and_mask _ _
  | seVxByte | sneVxByte | ldVxByte | addVxByte | rndVxByte => exact wordXK_and_class _ _ _
  | drwVxVyNibble => exact wordXY_and_class _ _ _ _
  | seVxVy | sneVxVy | ldVxVy | orVxVy | andVxVy | xorVxVy | addVxVy | subVxVy | shrVx | subnVxVy | shlVx =>
    exact wordXY_and_mask _ _ _ _
  | skpVx | sknpVx | ldVxDT | ldVxK | ldDTVx | ldSTVx | addIVx | ldFVx | ldBVx | ldMemVx | ldVxMem =>
    exact wordXK_and_mask _ _ _

/-- Every defined operation has its row in the map (R65). -/
theorem rowOf_mem_opcodeRows (i : Instr) (h : ∀ w, i ≠ .unknown w) : rowOf i ∈ opcodeRows := by
  cases i with
  | unknown w => exact absurd rfl (h w)
  | _ => simp only [rowOf]; decide

/-- A word of no row decodes to `<unknown>` (R66). -/
theorem decode_of_isUnknownWord (w : Word) (h : isUnknownWord w = true) : decode w = .unknown w := by
  have hw := encode_decode w
  by_cases hu : ∃ w', decode w = .unknown w'
  · obtain ⟨w', hw'⟩ := hu
    rw [hw'] at hw
    rw [hw', show w' = w from hw]
  · have hrow := rowOf_mem_opcodeRows (decode w) fun w' e => hu ⟨w', e⟩
    have hacc : w &&& (rowOf (decode w)).mask = (rowOf (decode w)).pattern := by
      simpa only [EncodesRow.Statement, hw] using encode_matches_rowOf (decode w)
    have hrej := List.all_eq_true.mp h _ hrow
    simp [OpcodeRow.accepts, hacc] at hrej

/-! ### Decoding the encoded instruction gives the instruction back -/

theorem decode_wordA (c : BitVec 4) (nnn : Addr) (hc : c ≠ 0) : decode (wordA c nnn) = decodeByClass (wordA c nnn) :=
  decode_of_class_ne_zero _ (by simpa using hc)

theorem decode_wordXK (c : BitVec 4) (x : Reg) (kk : Byte) (hc : c ≠ 0) :
    decode (wordXK c x kk) = decodeByClass (wordXK c x kk) := decode_of_class_ne_zero _ (by simpa using hc)

theorem decode_wordXY (c : BitVec 4) (x y : Reg) (n : Nibble) (hc : c ≠ 0) :
    decode (wordXY c x y n) = decodeByClass (wordXY c x y n) := decode_of_class_ne_zero _ (by simpa using hc)

/-- Decoding the word of a well-formed instruction gives the instruction back (R64, R65, R67). -/
theorem decode_encode (i : Instr) (h : i.wf = true) : decode (encode i) = i := by
  cases i with
  | cls | ret => decide
  | unknown w => exact decode_of_isUnknownWord w h
  | jpAddr | callAddr | ldIAddr | jpV0Addr =>
    rw [encode, decode_wordA _ _ (by decide)]
    simp [decodeByClass]
  | seVxByte | sneVxByte | ldVxByte | addVxByte | rndVxByte =>
    rw [encode, decode_wordXK _ _ _ (by decide)]
    simp [decodeByClass]
  | seVxVy | sneVxVy | drwVxVyNibble =>
    rw [encode, decode_wordXY _ _ _ _ (by decide)]
    simp [decodeByClass]
  | ldVxVy | orVxVy | andVxVy | xorVxVy | addVxVy | subVxVy | shrVx | subnVxVy | shlVx =>
    rw [encode, decode_wordXY _ _ _ _ (by decide)]
    simp [decodeByClass, decodeClass8]
  | skpVx | sknpVx =>
    rw [encode, decode_wordXK _ _ _ (by decide)]
    simp [decodeByClass, decodeClassE]
  | ldVxDT | ldVxK | ldDTVx | ldSTVx | addIVx | ldFVx | ldBVx | ldMemVx | ldVxMem =>
    rw [encode, decode_wordXK _ _ _ (by decide)]
    simp [decodeByClass, decodeClassF]

end Sys2Proof
end

section
/-! SUPPORT. The inversion lemma of a step, and the statements of 10_state.md: what every step keeps, what it leaves in `PC`,
who writes and reads what, and the state after reset. -/

namespace Sys2Proof.Machine

variable {s t : State} {w : Word}

/-! ### What a step can do, said once -/

/-- A step from `s` to `t` that executed `i` and raised no fault (R21). -/
structure CommittedStep (i : Instr) (s t : State) : Prop where
  noFault : faultOf i s = none
  executed : exec i s = .next t
  writes : WritesOnly i s t
  committed : CommittedBy i s t
  pc : t.pc = pcAfter i s

/-- An instruction that is executed and raises no fault commits its step. -/
theorem committedStep_of_exec {i : Instr} (h : faultOf i s = none) (hx : exec i s = .next t) : CommittedStep i s t := by
  obtain ⟨u, hu, hc⟩ := exec_of_faultOf_none s i h
  have htu : t = u := by rw [hx] at hu; cases hu; rfl
  exact ⟨h, hx, exec_writesOnly i h hx, htu ▸ hc, exec_pc i h hx⟩

/-- A running engine that fetched `w`: the step commits, or it takes the fault of the instruction (R21, R144). -/
theorem fetched_step_cases (hf : s.fault = none) (hw : s.fetchWord = .ok w) (h : step s = .next t) :
    CommittedStep (decode w) s t ∨ ∃ f, faultOf (decode w) s = some f ∧ t = s.takeFault f := by
  obtain ⟨hn, u, hx, hs, -⟩ | ⟨f, hq, hs⟩ := step_cases s w hf hw
  · rw [h] at hs; cases hs
    exact .inl (committedStep_of_exec hn hx)
  · rw [h] at hs; cases hs
    exact .inr ⟨f, hq, rfl⟩

/-- Any step: a halted engine stays as it is, a fault is taken, or a fetched instruction commits (R21, R144, R145). -/
theorem step_next_cases (h : step s = .next t) :
    t = s ∨ (∃ f, t = s.takeFault f) ∨ ∃ w, s.fetchWord = .ok w ∧ CommittedStep (decode w) s t := by
  by_cases hf : s.fault = none
  · cases hw : s.fetchWord with
    | error f =>
      rw [step_of_fetch_error s hf f hw] at h; cases h
      exact .inr (.inl ⟨f, rfl⟩)
    | ok w =>
      obtain hc | ⟨f, -, ht⟩ := fetched_step_cases hf hw h
      · exact .inr (.inr ⟨w, rfl, hc⟩)
      · exact .inr (.inl ⟨f, ht⟩)
  · rw [step_of_halted s hf] at h; cases h
    exact .inl rfl

/-! ### Memory stays canonical (R18, R40, R43) -/

theorem CommittedStep.memoryCanonical {i : Instr} (h : CommittedStep i s t) (hm : s.MemoryCanonical) :
    t.MemoryCanonical := by
  unfold State.MemoryCanonical at *
  rw [h.committed.params]
  obtain hsame | ⟨bs, -, hmem, hin⟩ := h.writes.memory
  · rw [hsame]; exact hm
  · rw [hmem]; exact Memory.wf_writeBytes bs s.mem _ hin hm

/-- Settles O52: a committed step leaves memory alone or writes a block that lies in the 4096 bytes. -/
theorem stepKeepsMemoryCanonical : Obligations.StepKeepsMemoryCanonical := by
  intro s t hm h
  obtain rfl | ⟨f, rfl⟩ | ⟨w, -, hc⟩ := step_next_cases h
  · exact hm
  · exact hm
  · exact hc.memoryCanonical hm

/-! ### The bounds on `PC` (R13, R22, R81) -/

/-- A `PC` at which a word can be fetched does not wrap when it is advanced. -/
theorem toNat_pc_add (n : Nat) (hn : n ≤ 4) (hpc : s.pc.toNat ≤ 0xFFE) :
    (s.pc + BitVec.ofNat 16 n).toNat = s.pc.toNat + n := by
  rw [BitVec.toNat_add, BitVec.toNat_ofNat]; omega

/-- Both ways a skip can go stay below 0x1002 (42_skip.md). -/
theorem toNat_skip_le (c : Bool) (hpc : s.pc.toNat ≤ 0xFFE) :
    (if c then s.pc + 4 else s.pc + 2 : Word).toNat ≤ 0x1002 := by
  have h2 := toNat_pc_add 2 (by decide) hpc
  have h4 := toNat_pc_add 4 (by decide) hpc
  split
  · exact h4.trans_le (by omega)
  · exact h2.trans_le (by omega)

/-- An address operand is below 0x1000 (R63). -/
theorem toNat_setWidth_addr_lt (nnn : Addr) : (nnn.setWidth 16 : Word).toNat < 0x1000 := by
  rw [BitVec.toNat_setWidth_of_le (by decide)]; exact nnn.isLt

/-- No row of R22 but those of `RET` and `JP V0+addr` exceeds 0x1002. -/
theorem pcAfter_le_of_not_jump (i : Instr) (hpc : s.pc.toNat ≤ 0xFFE) (hret : i ≠ .ret)
    (hjp : ∀ nnn, i ≠ .jpV0Addr nnn) : (pcAfter i s).toNat ≤ 0x1002 := by
  cases i with
  | ret => exact absurd rfl hret
  | jpV0Addr nnn => exact absurd rfl (hjp nnn)
  | jpAddr nnn | callAddr nnn => exact (toNat_setWidth_addr_lt nnn).le.trans (by decide)
  | seVxByte | sneVxByte | seVxVy | sneVxVy | skpVx | sknpVx => exact toNat_skip_le _ hpc
  | ldVxK x =>
    simp only [pcAfter]
    split
    · exact (toNat_pc_add 2 (by decide) hpc).trans_le (by omega)
    · omega
  | _ => exact (toNat_pc_add 2 (by decide) hpc).trans_le (by omega)

/-- The unmasked sum of `JP V0+addr` is at most 0xFFF + 0xFF (R85). -/
theorem pcAfter_jpV0Addr_le (nnn : Addr) : (pcAfter (.jpV0Addr nnn) s).toNat ≤ 0x10FE := by
  have hn := toNat_setWidth_addr_lt nnn
  have hb : ((s.getV 0).setWidth 16 : Word).toNat < 0x100 := by
    rw [BitVec.toNat_setWidth_of_le (by decide)]; exact (s.getV 0).isLt
  simp only [pcAfter, BitVec.toNat_add]
  omega

/-- No row of R22 but that of `RET` exceeds 0x10FE. -/
theorem pcAfter_le_of_ne_ret (i : Instr) (hpc : s.pc.toNat ≤ 0xFFE) (hret : i ≠ .ret) :
    (pcAfter i s).toNat ≤ 0x10FE := by
  by_cases hjp : ∃ nnn, i = .jpV0Addr nnn
  · obtain ⟨nnn, rfl⟩ := hjp
    exact pcAfter_jpV0Addr_le nnn
  · exact (pcAfter_le_of_not_jump i hpc hret fun nnn e => hjp ⟨nnn, e⟩).trans (by decide)

/-- What a committed step leaves in a live stack entry: the entry as before, or the address a `CALL` pushed (R14, R86). -/
theorem CommittedStep.entry_cases {i : Instr} (h : CommittedStep i s t) {k : Nat} (hk : k < t.sp) :
    (k < s.sp ∧ t.entry k = s.entry k) ∨ (k = s.sp ∧ t.entry k = s.pc + 2) := by
  unfold State.entry
  obtain ⟨hsp, hst⟩ | ⟨-, hst, hsp⟩ | ⟨nnn, -, -, hst, hsp⟩ := h.writes.stack
  · exact .inl ⟨hsp ▸ hk, by rw [hst]⟩
  · exact .inl ⟨by omega, by rw [hst]⟩
  · rw [hst, stackRead_stackWrite]
    by_cases hks : k = s.sp
    · exact .inr ⟨hks, if_pos hks⟩
    · exact .inl ⟨by omega, if_neg hks⟩

theorem CommittedStep.pcBounded {i : Instr} (h : CommittedStep i s t) (hpc : s.pc.toNat ≤ 0xFFE) (hb : s.PcBounded) :
    t.PcBounded := by
  obtain ⟨-, hlive⟩ := hb
  refine ⟨?_, fun k hk => ?_⟩
  · rw [h.pc]
    by_cases hret : i = .ret
    · subst hret
      have hsp := sp_ne_zero_of_faultOf_ret h.noFault
      exact (hlive (s.sp - 1) (by omega)).trans (by decide)
    · exact pcAfter_le_of_ne_ret i hpc hret
  · obtain ⟨hk', he⟩ | ⟨-, he⟩ := h.entry_cases hk
    · rw [he]; exact hlive k hk'
    · rw [he]; exact (toNat_pc_add 2 (by decide) hpc).trans_le (by omega)

/-- Settles O53: a committed step was fetched at a `PC` of at most 0xFFE, so a `CALL` pushes at most 0x1000 and every row of
R22 stays within 0x10FE. -/
theorem stepKeepsPcBounded : Obligations.StepKeepsPcBounded := by
  intro s t hb h
  obtain rfl | ⟨f, rfl⟩ | ⟨w, hw, hc⟩ := step_next_cases h
  · exact hb
  · exact hb
  · exact hc.pcBounded (pc_of_fetchWord_ok s w hw) hb

/-- Settles O41: a committed step leaves the row of R22 in `PC`, a fault leaves `PC` alone. -/
theorem pcAfterEveryInstruction : Obligations.PcAfterEveryInstruction := by
  intro s w hf hw
  have hpc := pc_of_fetchWord_ok s w hw
  obtain ⟨hn, t, hx, hs, -⟩ | ⟨f, hq, hs⟩ := step_cases s w hf hw
  · have ht := exec_pc _ hn hx
    refine ⟨t, hs, fun _ => ht, fun hne => absurd hn hne, hpc, ?_, ?_⟩ <;> rw [ht]
    · exact pcAfter_le_of_ne_ret _ hpc
    · exact pcAfter_le_of_not_jump _ hpc
  · refine ⟨_, hs, fun hn => ?_, fun _ => rfl, hpc, fun _ => ?_, fun _ _ => ?_⟩
    · rw [hq] at hn; cases hn
    · exact hpc.trans (by decide)
    · exact hpc.trans (by decide)

/-! ### The timers (R15, R151) -/

/-- `DT` after an instruction that raises no fault: what it sets, or what the timer phase leaves. -/
def dtAfter (i : Instr) (s : State) : Byte :=
  match i with
  | .ldDTVx x => s.getV x
  | _ => tickTimer s.cyc s.dt

/-- `ST` after an instruction that raises no fault: what it sets, or what the timer phase leaves. -/
def stAfter (i : Instr) (s : State) : Byte :=
  match i with
  | .ldSTVx x => s.getV x
  | _ => tickTimer s.cyc s.st

/-- The state with other values in both timers. -/
def State.setTimers (s : State) (d e : Byte) : State := { s with dt := d, st := e }

/-- A timer after the timer phase is as before or one less (R151). -/
theorem tickTimer_cases (c : Fin Config.timerDiv) (b : Byte) : tickTimer c b = b ∨ tickTimer c b = floorDec b := by
  unfold tickTimer
  split
  · exact .inr rfl
  · exact .inl rfl

/-- An instruction other than `LD DT,Vx` leaves `DT` to the timer phase (R15). -/
theorem dtAfter_of_ne (i : Instr) (h : ∀ x, i ≠ .ldDTVx x) : dtAfter i s = tickTimer s.cyc s.dt := by
  cases i with
  | ldDTVx x => exact absurd rfl (h x)
  | _ => rfl

/-- An instruction other than `LD ST,Vx` leaves `ST` to the timer phase (R15). -/
theorem stAfter_of_ne (i : Instr) (h : ∀ x, i ≠ .ldSTVx x) : stAfter i s = tickTimer s.cyc s.st := by
  cases i with
  | ldSTVx x => exact absurd rfl (h x)
  | _ => rfl

theorem CommittedStep.dt_eq {i : Instr} (h : CommittedStep i s t) : t.dt = dtAfter i s := by
  by_cases hi : ∃ x, i = .ldDTVx x
  · obtain ⟨x, rfl⟩ := hi
    cases h.executed; rfl
  · have hne : ∀ x, i ≠ .ldDTVx x := fun x e => hi ⟨x, e⟩
    rw [h.committed.dt hne, dtAfter_of_ne i hne]

theorem CommittedStep.st_eq {i : Instr} (h : CommittedStep i s t) : t.st = stAfter i s := by
  by_cases hi : ∃ x, i = .ldSTVx x
  · obtain ⟨x, rfl⟩ := hi
    cases h.executed; rfl
  · have hne : ∀ x, i ≠ .ldSTVx x := fun x e => hi ⟨x, e⟩
    rw [h.committed.st hne, stAfter_of_ne i hne]

theorem skipIf_setTimers (d e : Byte) (c : Bool) : (s.setTimers d e).skipIf c = (s.skipIf c).setTimers d e := by
  cases c <;> rfl

theorem afterKeyWait_setTimers (d e : Byte) (x : Reg) (k : Option Byte) :
    (s.setTimers d e).afterKeyWait x k = (s.afterKeyWait x k).setTimers d e := by
  cases k <;> rfl

theorem loadRegs_setTimers (d e : Byte) (base n : Nat) :
    (s.setTimers d e).loadRegs base n = (s.loadRegs base n).setTimers d e := by
  induction n with
  | zero => rfl
  | succ n ih => rw [State.loadRegs, ih]; rfl

theorem faultOf_setTimers (i : Instr) (d e : Byte) : faultOf i (s.setTimers d e) = faultOf i s := by
  cases i <;> rfl

/-- An instruction does the same whatever the timers hold, but for the timers themselves; `LD Vx,DT` alone reads `DT`, and none
reads `ST` (R15). -/
theorem exec_setTimers (i : Instr) (d e : Byte) (h : faultOf i s = none) (hx : exec i s = .next t)
    (hd : d = s.dt ∨ ∀ x, i ≠ .ldVxDT x) :
    exec i (s.setTimers d e) =
      .next (t.setTimers (dtAfter i (s.setTimers d e)) (stAfter i (s.setTimers d e))) := by
  have h' := (faultOf_setTimers i d e).trans h
  cases i with
  | ret =>
    have h0 := sp_ne_zero_of_faultOf_ret h
    rw [exec_ret_ok s h0] at hx; cases hx
    exact exec_ret_ok _ h0
  | callAddr nnn =>
    have h0 := not_full_of_faultOf_callAddr nnn h
    rw [exec_callAddr_ok s nnn h0] at hx; cases hx
    exact exec_callAddr_ok _ nnn h0
  | drwVxVyNibble x y n =>
    rw [exec_drw_ok s x y n h] at hx; cases hx
    exact exec_drw_ok _ x y n h'
  | ldBVx x =>
    rw [exec_ldBVx_ok s x h] at hx; cases hx
    exact exec_ldBVx_ok _ x h'
  | ldMemVx x =>
    rw [exec_ldMemVx_ok s x h] at hx; cases hx
    exact exec_ldMemVx_ok _ x h'
  | ldVxMem x =>
    rw [exec_ldVxMem_ok s x h] at hx; cases hx
    rw [exec_ldVxMem_ok _ x h']
    exact congrArg Host.Outcome.next (loadRegs_setTimers (s := s.advance) _ _ _ _)
  | ldVxDT x =>
    cases hx
    obtain rfl | hne := hd
    · rfl
    · exact absurd rfl (hne x)
  | seVxByte | sneVxByte | seVxVy | sneVxVy | skpVx | sknpVx =>
    cases hx; exact congrArg Host.Outcome.next (skipIf_setTimers (s := s.advance) _ _ _)
  | ldVxK x =>
    cases hx; exact congrArg Host.Outcome.next (afterKeyWait_setTimers (s := s.advance) _ _ _ _)
  | _ => cases hx; rfl

/-- Writing a register twice leaves the second byte (R10). -/
theorem setV_setV (x : Reg) (b c : Byte) : (s.setV x b).setV x c = s.setV x c := by
  simp [State.setV]

/-- `LD Vx,DT` with another `DT`: only `V[x]` and `DT` differ (R122). -/
theorem exec_ldVxDT_setTimers (x : Reg) (d e : Byte) (hx : exec (.ldVxDT x) s = .next t) :
    exec (.ldVxDT x) (s.setTimers d e) =
      .next ((t.setV x (tickTimer s.cyc d)).setTimers (tickTimer s.cyc d) (tickTimer s.cyc e)) := by
  cases hx
  rw [setV_setV]; rfl

/-- An engine that differs in its timers only fetches the same word (R44). -/
theorem step_setTimers (d e : Byte) (hf : s.fault = none) (hw : s.fetchWord = .ok w) :
    step (s.setTimers d e) = exec (decode w) (s.setTimers d e) :=
  step_of_fetch (s.setTimers d e) hf w hw

/-- A fault is taken whatever the timers hold (R144). -/
theorem step_setTimers_of_fault (d e : Byte) (f : Fault) (hf : s.fault = none) (hw : s.fetchWord = .ok w)
    (hq : faultOf (decode w) s = some f) : step (s.setTimers d e) = .next ((s.takeFault f).setTimers d e) :=
  (step_setTimers d e hf hw).trans (exec_of_faultOf_some _ _ f ((faultOf_setTimers _ d e).trans hq))

/-- The same step with another `ST` differs in `ST` only (R15). -/
theorem step_other_st (b : Byte) (hf : s.fault = none) (hw : s.fetchWord = .ok w) (h : step s = .next t) :
    ∃ c : Byte, step { s with st := b } = .next { t with st := c } := by
  obtain hc | ⟨f, hq, rfl⟩ := fetched_step_cases hf hw h
  · refine ⟨stAfter (decode w) (s.setTimers s.dt b), ?_⟩
    have hx := exec_setTimers (decode w) s.dt b hc.noFault hc.executed (.inl rfl)
    have hdt : dtAfter (decode w) (s.setTimers s.dt b) = t.dt := hc.dt_eq.symm
    rw [hdt] at hx
    exact (step_setTimers s.dt b hf hw).trans hx
  · exact ⟨b, step_setTimers_of_fault s.dt b f hf hw hq⟩

/-- The same step with another `DT` differs in `DT` only, if it is not `LD Vx,DT` (R15). -/
theorem step_other_dt (b : Byte) (hf : s.fault = none) (hw : s.fetchWord = .ok w) (h : step s = .next t)
    (hne : ∀ x, decode w ≠ .ldVxDT x) : ∃ c : Byte, step { s with dt := b } = .next { t with dt := c } := by
  obtain hc | ⟨f, hq, rfl⟩ := fetched_step_cases hf hw h
  · refine ⟨dtAfter (decode w) (s.setTimers b s.st), ?_⟩
    have hx := exec_setTimers (decode w) b s.st hc.noFault hc.executed (.inr hne)
    have hst : stAfter (decode w) (s.setTimers b s.st) = t.st := hc.st_eq.symm
    rw [hst] at hx
    exact (step_setTimers b s.st hf hw).trans hx
  · exact ⟨b, step_setTimers_of_fault b s.st f hf hw hq⟩

/-- The same `LD Vx,DT` with another `DT` differs in `DT` and `V[x]` only (R15, R122). -/
theorem step_ldVxDT_other_dt (x : Reg) (b : Byte) (hf : s.fault = none) (hw : s.fetchWord = .ok w)
    (hi : decode w = .ldVxDT x) (h : step s = .next t) :
    ∃ c d : Byte, step { s with dt := b } = .next { t.setV x d with dt := c } := by
  have hx : exec (.ldVxDT x) s = .next t := by rw [← hi, ← step_of_fetch s hf w hw, h]
  have hst : t.st = tickTimer s.cyc s.st := by cases hx; rfl
  refine ⟨tickTimer s.cyc b, tickTimer s.cyc b, ?_⟩
  have hb := exec_ldVxDT_setTimers x b s.st hx
  rw [← hst, ← hi, ← step_setTimers b s.st hf hw] at hb
  exact hb

/-- `DT` after a step: as before, one less, or set by `LD DT,Vx` (R15). -/
theorem CommittedStep.dt_cases {i : Instr} (h : CommittedStep i s t) :
    t.dt = s.dt ∨ t.dt = floorDec s.dt ∨ ∃ x, i = .ldDTVx x := by
  by_cases hi : ∃ x, i = .ldDTVx x
  · exact .inr (.inr hi)
  · rw [h.committed.dt fun x e => hi ⟨x, e⟩]
    exact (tickTimer_cases s.cyc s.dt).imp_right .inl

/-- `ST` after a step: as before, one less, or set by `LD ST,Vx` (R15). -/
theorem CommittedStep.st_cases {i : Instr} (h : CommittedStep i s t) :
    t.st = s.st ∨ t.st = floorDec s.st ∨ ∃ x, i = .ldSTVx x := by
  by_cases hi : ∃ x, i = .ldSTVx x
  · exact .inr (.inr hi)
  · rw [h.committed.st fun x e => hi ⟨x, e⟩]
    exact (tickTimer_cases s.cyc s.st).imp_right .inl

/-- A step whose instruction raises no fault commits. -/
theorem committedStep_of_faultOf_none (hf : s.fault = none) (hw : s.fetchWord = .ok w) (h : step s = .next t)
    (hn : faultOf (decode w) s = none) : CommittedStep (decode w) s t :=
  committedStep_of_exec hn ((step_of_fetch s hf w hw).symm.trans h)

/-- Settles O44: the writers are read off the committed step, the independence is `exec_setTimers`. -/
theorem timersWrittenAndReadAsListed : Obligations.TimersWrittenAndReadAsListed := by
  intro s t w hf hw h
  refine ⟨?_, ?_, fun x hi => ?_, fun x hi => ?_, fun x hi => ?_, fun b => step_other_st b hf hw h,
    fun hne b => step_other_dt b hf hw h hne, fun x hi b => step_ldVxDT_other_dt x b hf hw hi h, rfl, rfl⟩
  · obtain hc | ⟨f, -, rfl⟩ := fetched_step_cases hf hw h
    · exact hc.dt_cases
    · exact .inl rfl
  · obtain hc | ⟨f, -, rfl⟩ := fetched_step_cases hf hw h
    · exact hc.st_cases
    · exact .inl rfl
  · have hc := committedStep_of_faultOf_none hf hw h (by rw [hi]; rfl)
    exact .inl (by rw [hc.dt_eq, hi]; rfl)
  · have hc := committedStep_of_faultOf_none hf hw h (by rw [hi]; rfl)
    exact .inl (by rw [hc.st_eq, hi]; rfl)
  · have hc := committedStep_of_faultOf_none hf hw h (by rw [hi]; rfl)
    have hx := hc.executed
    rw [hi] at hx; cases hx
    exact .inr (getV_setV_same _ _ _)

/-! ### Who writes what (R10, R11, R12, R14, R20) -/

/-- Settles O45: a fault changes no register, and a committed step writes its destinations only. -/
theorem onlyDestinationsChange : Obligations.OnlyDestinationsChange := by
  intro s t w r hf hw h hne
  obtain hc | ⟨f, -, rfl⟩ := fetched_step_cases hf hw h
  · by_contra hr
    exact hne (hc.writes.regs r hr)
  · exact absurd rfl hne

/-- Settles O46: a fault leaves `I` alone, and a committed step changes it for the three writers only. -/
theorem onlyIndexWritersChangeIndex : Obligations.OnlyIndexWritersChangeIndex := by
  intro s t w hf hw h hne
  obtain hc | ⟨f, -, rfl⟩ := fetched_step_cases hf hw h
  · exact hc.writes.index.resolve_left hne
  · exact absurd rfl hne

/-- A step that changes `SP` or the stack is a `CALL` or a `RET` (R14). -/
theorem CommittedStep.call_or_ret {i : Instr} (h : CommittedStep i s t) (hne : t.sp ≠ s.sp ∨ t.stack ≠ s.stack) :
    (∃ nnn, i = .callAddr nnn) ∨ i = .ret := by
  obtain ⟨hsp, hst⟩ | ⟨hret, -, -⟩ | ⟨nnn, hcall, -⟩ := h.writes.stack
  · exact absurd hne (by simp [hsp, hst])
  · exact .inr hret
  · exact .inl ⟨nnn, hcall⟩

/-- No step changes an entry in use (R14): a `RET` erases nothing, and a `CALL` writes at the old `SP`. -/
theorem CommittedStep.entry_of_lt {i : Instr} (h : CommittedStep i s t) {k : Nat} (hk : k < s.sp) :
    t.entry k = s.entry k := by
  unfold State.entry
  obtain ⟨-, hst⟩ | ⟨-, hst, -⟩ | ⟨nnn, -, -, hst, -⟩ := h.writes.stack
  · rw [hst]
  · rw [hst]
  · rw [hst, stackRead_stackWrite, if_neg hk.ne]

/-- A `CALL` that raises no fault finds `SP` below `STACK_DEPTH` (R14). -/
theorem CommittedStep.stackBounded {i : Instr} (h : CommittedStep i s t) (hb : s.StackBounded) : t.StackBounded := by
  intro d hd
  rw [h.committed.params] at hd
  obtain ⟨hsp, hlen⟩ := hb d hd
  obtain ⟨hsp', hst⟩ | ⟨-, hst, hsp'⟩ | ⟨nnn, -, hfull, hst, hsp'⟩ := h.writes.stack
  · rw [hsp', hst]; exact ⟨hsp, hlen⟩
  · rw [hst]; exact ⟨by omega, hlen⟩
  · have hne : d ≠ s.sp := fun e => hfull (e ▸ hd)
    rw [hst, length_stackWrite, hsp']
    omega

/-- Settles O48: a fault leaves the stack alone, a committed step is taken apart by what it does to the stack. -/
theorem onlyCallAndReturnTouchStack : Obligations.OnlyCallAndReturnTouchStack := by
  intro s t w hf hw h
  obtain hc | ⟨f, -, rfl⟩ := fetched_step_cases hf hw h
  · exact ⟨hc.call_or_ret, fun _ => hc.entry_of_lt, hc.stackBounded⟩
  · exact ⟨fun hne => absurd hne (by simp), fun _ _ => rfl, id⟩

/-- Settles O50: a step that ends without a fault committed. -/
theorem committedStepDrawsInputs : Obligations.CommittedStepDrawsInputs := by
  intro s t w hf hw h ht
  obtain hc | ⟨f, -, rfl⟩ := fetched_step_cases hf hw h
  · exact ⟨hc.committed.inputsAt_eq, hc.committed.loadOpen, hc.committed.params⟩
  · cases ht

/-! ### The fetched instruction (R21, R44) -/

/-- Settles O35: the fetch reads the two bytes high first, and decoding undoes encoding. -/
theorem stepRunsDecodedInstruction : Obligations.StepRunsDecodedInstruction := by
  intro s hf hpc
  have hs := step_of_fetch s hf _ (fetchWord_ok s hpc)
  refine ⟨hs, fun i hi hbytes => ?_⟩
  obtain ⟨hhi, hlo⟩ : s.byteAt s.pc.toNat = highByte (encode i) ∧ s.byteAt (s.pc.toNat + 1) = lowByte (encode i) := by
    simpa [encodeBytes] using hbytes
  rw [hs, hhi, hlo, wordOfBytes_bytes, decode_encode i hi]

/-! ### The state after reset (R24, R180, R181) -/

/-- Settles O54: memory lists nothing, `PC` is 0x200 and the stack is empty. -/
theorem resetSatisfiesInvariants : Obligations.ResetSatisfiesInvariants := by
  intro p
  have hpc : (BitVec.ofNat 16 Config.progBase).toNat ≤ 0x10FE := by decide
  refine ⟨reset_memory_wf p, ⟨hpc, fun k hk => ?_⟩, fun d _ => ⟨d.zero_le, d.zero_le⟩⟩
  exact absurd hk k.not_lt_zero

/-- Every register is 0 after reset (R24). -/
theorem rst_getV (s : State) (r : Reg) : s.rst.getV r = 0 := by
  simp [State.getV, State.rst, State.resetWith]

/-- After reset every byte of memory reads as its reset contents (R24, R41). -/
theorem rst_byteAt (s : State) (a : Nat) : s.rst.byteAt a = initByte s.params a := rfl

/-- Settles O56: the registers and the memory by their lemmas, every other entry of R24's table by definition. -/
theorem resetStateFromAnyState : Obligations.ResetStateFromAnyState := by
  refine ⟨fun s => ?_, fun p => ⟨rfl, rfl⟩, rfl, rfl, rfl, rfl, rfl, rfl, pixelActive_clearedScreen⟩
  have hfont : ∀ (j : Nat) (h : j < 80), s.rst.byteAt (0x50 + j) = s.params.font[j] := fun j h =>
    (rst_byteAt s _).trans (initByte_font s.params j h)
  have hmem : ∀ a : Nat, a < 0x50 ∨ 0xA0 ≤ a → s.rst.byteAt a = s.params.memInit := fun a h =>
    (rst_byteAt s a).trans (initByte_outside s.params a h)
  exact ⟨rfl, rst_getV s, rfl, rfl, rfl, rfl, rfl, rfl, hfont, hmem, fun _ _ => rfl, rfl, rfl⟩

end Sys2Proof.Machine
end

section
/-! SUPPORT. The statements of 20_memory.md: the big-endian fetch and its fault, which bytes a step can change, and a store seen
by the next fetch; with the rules they need for the program load and the block store. -/

namespace Sys2Proof.Machine

variable {s t : State} {w : Word}

/-! ### The program load (R182, R183) -/

/-- An accepted load of a program that fits is one store, and closes the load window. -/
theorem loadProgram_of_fits {bytes : List Byte} (ha : s.loadAccepted = true) (hlen : bytes.length ≤ 3584) :
    s.loadProgram bytes = { s.store 0x200 bytes with loadOpen := false } := by
  unfold State.loadProgram
  rw [if_pos ha]
  exact if_pos hlen

/-- Byte `j` of a program that is loaded lies at `0x200 + j` (R183). -/
theorem byteAt_loadProgram {bytes : List Byte} {j : Nat} {b : Byte} (ha : s.loadAccepted = true)
    (hm : s.MemoryCanonical) (hlen : bytes.length ≤ 3584) (hb : bytes[j]? = some b) :
    (s.loadProgram bytes).byteAt (0x200 + j) = b := by
  obtain ⟨hj, rfl⟩ := List.getElem?_eq_some_iff.mp hb
  rw [loadProgram_of_fits ha hlen]
  exact byteAt_store_inside s 0x200 j bytes hj (by omega) hm

/-! ### The fetch (R43, R44, R141) -/

/-- Settles O36: the fetched word is put together from the two bytes at `PC`, and a loaded image is those bytes. -/
theorem fetchIsBigEndian : Obligations.FetchIsBigEndian := by
  refine ⟨fun s hpc => ⟨_, fetchWord_ok s hpc, highByte_wordOfBytes _ _, lowByte_wordOfBytes _ _⟩, ?_⟩
  intro p bytes j hi lo hlen hhi hlo
  obtain ⟨hj, -⟩ := List.getElem?_eq_some_iff.mp hlo
  have hpc : (BitVec.ofNat 16 (0x200 + j)).toNat = 0x200 + j := by rw [BitVec.toNat_ofNat]; omega
  have hm : (State.resetWith p).MemoryCanonical := reset_memory_wf p
  rw [fetchWord_ok _ (by rw [setPc_pc, hpc]; omega), setPc_pc, hpc, setPc_byteAt, setPc_byteAt, Nat.add_assoc,
    byteAt_loadProgram rfl hm hlen hhi, byteAt_loadProgram rfl hm hlen hlo, wordOfBytes]

/-- Settles O37: the fetch fails at the lowest address out of range, and the step takes that fault. -/
theorem fetchBeyondMemoryHalts : Obligations.FetchBeyondMemoryHalts := fun s hf hpc =>
  step_of_fetch_error s hf _ (fetchWord_error s hpc)

/-! ### Stores (R40, R48, R51) -/

/-- A committed step changes no byte but those its instruction stores from `I` upward (R40). -/
theorem CommittedStep.sameMemoryOutside {i : Instr} (h : CommittedStep i s t) :
    SameMemoryOutside s.i.toNat (storedBytes i) s t := by
  intro a ha
  unfold State.byteAt
  rw [h.committed.params]
  obtain hsame | ⟨bs, hlen, hmem, -⟩ := h.writes.memory
  · rw [hsame]
  · rw [hmem]
    exact Memory.read_writeBytes_of_outside bs s.mem _ a (hlen ▸ ha)

/-- Settles O47: a fault changes no byte, and a committed step none outside the block its instruction stores. -/
theorem onlyStoresChangeMemory : Obligations.OnlyStoresChangeMemory := by
  intro s t w a hf hw h hne
  obtain hc | ⟨f, -, rfl⟩ := fetched_step_cases hf hw h
  · by_contra hout
    exact hne (hc.sameMemoryOutside a (by omega))
  · exact absurd rfl hne

/-- After `LD [I],Vx` stored the registers below `count`, register `r` of them lies at `base + r` (R130). -/
theorem byteAt_store_firstRegs {base count : Nat} (r : Reg) (hr : r.toNat < count) (hlt : base + count ≤ 0x1000)
    (hm : s.MemoryCanonical) : (s.store base (s.firstRegs count)).byteAt (base + r.toNat) = s.getV r := by
  rw [byteAt_store_inside s base r.toNat _ (by simpa using hr) (by simpa using hlt) hm, firstRegs_getElem]
  simp

/-- Registers stored over the coming instruction are the word that is fetched, `V[0]` its high byte (R44, R51). -/
theorem fetchWord_store_firstRegs {count : Nat} (hc : 2 ≤ count) (hlt : s.pc.toNat + count ≤ 0x1000)
    (hm : s.MemoryCanonical) :
    (s.store s.pc.toNat (s.firstRegs count)).fetchWord = .ok (wordOfBytes (s.getV 0) (s.getV 1)) := by
  have hhi := byteAt_store_firstRegs 0 (Nat.zero_lt_of_lt hc) hlt hm
  have hlo := byteAt_store_firstRegs 1 hc hlt hm
  rw [fetchWord_ok (s.store _ _) (show s.pc.toNat ≤ 0xFFE by omega)]
  exact congrArg Except.ok (congrArg₂ wordOfBytes hhi hlo)

/-- Settles O51: the store commits with `PC` at `I`, so that the word fetched next is the first two registers stored. -/
theorem nextFetchSeesStore : Obligations.NextFetchSeesStore := by
  intro s w x hf hm hw hi hx hpc hin
  have hok : faultOf (.ldMemVx x) s = none := if_neg (by omega)
  have hs : step s = .next (s.advance.store s.i.toNat (s.advance.firstRegs (x.toNat + 1))) := by
    rw [step_of_fetch s hf w hw, hi, exec_ldMemVx_ok s x hok]
  have hpc' : s.advance.pc = s.i := hpc.symm
  have hfetch := fetchWord_store_firstRegs (s := s.advance) (count := x.toNat + 1) (by omega) (by rw [hpc']; omega) hm
  rw [hpc'] at hfetch
  exact ⟨_, hs, step_of_fetch (s.advance.store _ _) hf _ hfetch⟩

end Sys2Proof.Machine
end

section
/-! SUPPORT. The statements of 30_encoding.md: the decoder selects the row of the opcode map that a word matches, hence the
`<unknown>` space is exactly the words of no row; with the round trips over words and over bytes. -/

namespace Sys2Proof

open Sys2Proof.Laws

/-! ### The fields that a mask keeps (R61, R65) -/

/-- Bits that the mask of a row keeps are those of the row's pattern. -/
theorem extractLsb'_eq_of_and_eq {w m p : Word} {start len : Nat} (h : w &&& m = p)
    (hm : m.extractLsb' start len = BitVec.allOnes len) : w.extractLsb' start len = p.extractLsb' start len := by
  rw [← h, BitVec.extractLsb'_and, hm, BitVec.and_allOnes]

theorem fieldC_eq_of_and_eq {w m p : Word} (h : w &&& m = p) (hm : fieldC m = 0xF#4) : fieldC w = fieldC p :=
  extractLsb'_eq_of_and_eq h hm

theorem fieldN_eq_of_and_eq {w m p : Word} (h : w &&& m = p) (hm : fieldN m = 0xF#4) : fieldN w = fieldN p :=
  extractLsb'_eq_of_and_eq h hm

theorem fieldKK_eq_of_and_eq {w m p : Word} (h : w &&& m = p) (hm : fieldKK m = 0xFF#8) : fieldKK w = fieldKK p :=
  extractLsb'_eq_of_and_eq h hm

/-! ### The decoder selects the matching row (R64, R65) -/

/-- A word that matches the row of a defined operation decodes to an instruction of that row: the class is kept by the
row's mask, and so is the sub-opcode where the class has one. -/
theorem rowOf_decode_of_matches_rowOf (i : Instr) (hi : ∀ u, i ≠ .unknown u) {w : Word}
    (h : w &&& (rowOf i).mask = (rowOf i).pattern) : rowOf (decode w) = rowOf i := by
  cases i with
  | unknown u => exact absurd rfl (hi u)
  | cls | ret =>
    obtain rfl : w = _ := BitVec.and_allOnes.symm.trans h
    rfl
  | jpAddr | callAddr | seVxByte | sneVxByte | ldVxByte | addVxByte | ldIAddr | jpV0Addr | rndVxByte | drwVxVyNibble =>
    simp only [rowOf] at h
    have hc := fieldC_eq_of_and_eq h (by decide)
    rw [decode_of_class_ne_zero w (hc ▸ by decide), decodeByClass, hc]
    rfl
  | seVxVy | sneVxVy =>
    simp only [rowOf] at h
    have hc := fieldC_eq_of_and_eq h (by decide)
    have hn := fieldN_eq_of_and_eq h (by decide)
    rw [decode_of_class_ne_zero w (hc ▸ by decide), decodeByClass, hc, hn]
    rfl
  | ldVxVy | orVxVy | andVxVy | xorVxVy | addVxVy | subVxVy | shrVx | subnVxVy | shlVx =>
    simp only [rowOf] at h
    have hc := fieldC_eq_of_and_eq h (by decide)
    have hn := fieldN_eq_of_and_eq h (by decide)
    rw [decode_of_class_ne_zero w (hc ▸ by decide), decodeByClass, hc, decodeClass8, hn]
    rfl
  | skpVx | sknpVx =>
    simp only [rowOf] at h
    have hc := fieldC_eq_of_and_eq h (by decide)
    have hkk := fieldKK_eq_of_and_eq h (by decide)
    rw [decode_of_class_ne_zero w (hc ▸ by decide), decodeByClass, hc, decodeClassE, hkk]
    rfl
  | ldVxDT | ldVxK | ldDTVx | ldSTVx | addIVx | ldFVx | ldBVx | ldMemVx | ldVxMem =>
    simp only [rowOf] at h
    have hc := fieldC_eq_of_and_eq h (by decide)
    have hkk := fieldKK_eq_of_and_eq h (by decide)
    rw [decode_of_class_ne_zero w (hc ▸ by decide), decodeByClass, hc, decodeClassF, hkk]
    rfl

/-- The pattern of a row is itself a word of the row (R65). -/
theorem rowOf_decode_pattern : ∀ row ∈ opcodeRows, rowOf (decode row.pattern) = row := by decide

/-- The last row of the map has no match and mask among the defined rows (R65). -/
theorem rowOf_unknown_notMem_opcodeRows (u : Word) : rowOf (.unknown u) ∉ opcodeRows := by
  rw [rowOf]
  decide

/-- A word that matches a row of the opcode map decodes to an instruction of that row (R64, R65). -/
theorem rowOf_decode_of_mem_opcodeRows {row : OpcodeRow} (hr : row ∈ opcodeRows) {w : Word}
    (h : w &&& row.mask = row.pattern) : rowOf (decode w) = row := by
  have hrow : rowOf (decode row.pattern) = row := rowOf_decode_pattern row hr
  have hdef : ∀ u, decode row.pattern ≠ .unknown u := fun u hu =>
    rowOf_unknown_notMem_opcodeRows u (by rw [← hu, hrow]; exact hr)
  exact (rowOf_decode_of_matches_rowOf _ hdef (by rw [hrow]; exact h)).trans hrow

/-! ### The `<unknown>` space, exactly (R66) -/

theorem isUnknownWord_iff (w : Word) : isUnknownWord w = true ↔ ∀ row ∈ opcodeRows, w &&& row.mask ≠ row.pattern := by
  simp [isUnknownWord, OpcodeRow.accepts]

/-- `<unknown>` keeps the word it was decoded from. -/
theorem eq_of_decode_eq_unknown {w u : Word} (h : decode w = .unknown u) : u = w := by
  have hw := encode_decode w
  rwa [h] at hw

theorem decode_eq_unknown_iff (w : Word) : decode w = .unknown w ↔ isUnknownWord w = true := by
  refine ⟨fun hu => (isUnknownWord_iff w).mpr fun row hr hmatch => ?_, decode_of_isUnknownWord w⟩
  have hrow := rowOf_decode_of_mem_opcodeRows hr hmatch
  rw [hu] at hrow
  exact rowOf_unknown_notMem_opcodeRows w (hrow ▸ hr)

/-- The operand types are the whole check for every operation but `<unknown>` (R63, R66). -/
theorem wf_of_ne_unknown (i : Instr) (h : ∀ u, i ≠ .unknown u) : i.wf = true := by
  cases i with
  | unknown u => exact absurd rfl (h u)
  | _ => rfl

theorem wf_decode (w : Word) : (decode w).wf = true := by
  by_cases hu : ∃ u, decode w = .unknown u
  · obtain ⟨u, hu⟩ := hu
    obtain rfl := eq_of_decode_eq_unknown hu
    rw [hu]
    exact (decode_eq_unknown_iff u).mp hu
  · exact wf_of_ne_unknown _ fun u hd => hu ⟨u, hd⟩

/-! ### The byte decoder (R44, R60) -/

/-- The byte decoder reads the word whose bytes come first, and leaves the rest. -/
theorem decodeBytes_bytes (w : Word) (rest : List Byte) :
    decodeBytes (highByte w :: lowByte w :: rest) = .ok (decode w, rest) := by
  rw [decodeBytes, wordOfBytes_bytes]

/-! ### The statements -/

/-- Settles O1: each format's word decodes by its class, and an `<unknown>` word by the absence of a row. -/
theorem decodeEncodeRoundTrip : Obligations.DecodeEncodeRoundTrip := decode_encode

/-- Settles O2: only `<unknown>` has a check to pass, and its word matches no row; the encoding drops no bit. -/
theorem everyWordDecodesUniquely : Obligations.EveryWordDecodesUniquely := fun w => ⟨wf_decode w, encode_decode w⟩

/-- Settles O4: a word of some row decodes to an instruction of that row, a word of no row to `<unknown>`. -/
theorem unknownExactlyOutsideTheMap : Obligations.UnknownExactlyOutsideTheMap := fun w =>
  (decode_eq_unknown_iff w).trans (isUnknownWord_iff w)

/-- Settles O3: the byte decoder on the two bytes of a word is the decoder on the word. -/
theorem decodeNeverFails : Obligations.DecodeNeverFails := fun w rest => ⟨decode w, decodeBytes_bytes w rest, rfl⟩

/-- Settles O5: fifteen words of the table of 95_test_vectors.md section 2.1, evaluated. -/
theorem sampleWordsDecode : Obligations.SampleWordsDecode := by
  unfold Obligations.SampleWordsDecode
  decide

/-- Settles O6: the two bytes of an instruction are put together to its word, which decodes back to it. -/
theorem decodeBytesConsumesTwo : Obligations.DecodeBytesConsumesTwo := by
  intro i rest hi
  calc decodeBytes (encodeBytes i ++ rest)
    _ = .ok (decode (encode i), rest) := decodeBytes_bytes (encode i) rest
    _ = .ok (i, rest) := by rw [decode_encode i hi]

end Sys2Proof
end

section
/-! SUPPORT. The statements of 40_screen_flow.md: `CLS` and `RET`. Each commits the advanced state with one or two fields
replaced, so that every frame clause is that of the advanced state. -/

namespace Sys2Proof.Machine

/-- Advancing changes `PC`, the timers and the inputs only (R13, R21). -/
theorem registerFrame_advance (s : State) : RegisterFrame [] s s.advance where
  regs r _ := advance_getV s r
  index := advance_i s
  stack := ⟨advance_sp s, advance_stack s⟩
  memory := advance_byteAt s
  screen _ _ := rfl
  timers := ⟨advance_cyc s, advance_dt s, advance_st s⟩
  fault := advance_fault s

/-- `CLS`, in one equation (R80, R156). -/
theorem exec_cls (s : State) : exec .cls s = .next (s.advance.setFb clearedScreen) := rfl

/-- Settles O7: `CLS` replaces only the framebuffer of the advanced state, by one that is off everywhere. -/
theorem clearTurnsEveryPixelOff : Obligations.ClearTurnsEveryPixelOff := by
  refine ⟨decode_encode .cls rfl, fun s => ?_⟩
  obtain ⟨hregs, hindex, hstack, hmemory, -, htimers, hfault⟩ := registerFrame_advance s
  exact ⟨_, exec_cls s, pixelActive_clearedScreen, advance_pc s, hregs, hindex, hstack, hmemory, htimers, hfault⟩

/-- Settles O8: `RET` replaces only `SP` and `PC` of the advanced state; popping leaves the array of entries as it is. -/
theorem returnPopsTheStack : Obligations.ReturnPopsTheStack := by
  refine ⟨decode_encode .ret rfl, fun s hsp => ?_⟩
  obtain ⟨hregs, hindex, ⟨-, hentries⟩, hmemory, hscreen, htimers, hfault⟩ := registerFrame_advance s
  exact ⟨_, exec_ret_ok s hsp.ne', rfl, rfl, hentries, hregs, hindex, hmemory, hscreen, htimers, hfault⟩

end Sys2Proof.Machine
end

section
/-! SUPPORT. The statements of 41_jump_call.md: `JP addr`, `JP V0+addr` and `CALL`. Each commits the advanced state with `PC`
replaced, `CALL` also with its return address pushed. The targets are numbers, as no sum wraps at 16 bits. -/

namespace Sys2Proof.Machine

/-! ### Targets as numbers (R63, R85) -/

/-- Zero extension keeps the value of an address (R63). -/
@[simp] theorem toNat_zextAddr (nnn : Addr) : (zextAddr nnn).toNat = nnn.toNat := BitVec.toNat_setWidth_of_le (by decide)

/-- Zero extension keeps the value of a byte (R85). -/
@[simp] theorem toNat_zextByte (b : Byte) : (zextByte b).toNat = b.toNat := BitVec.toNat_setWidth_of_le (by decide)

/-- The sum of a 12-bit address and a byte does not wrap at 16 bits (R85). -/
theorem toNat_jumpOffset (s : State) (nnn : Addr) : (s.jumpOffset nnn).toNat = nnn.toNat + (s.getV 0).toNat := by
  have hn := nnn.isLt
  have hb := (s.getV 0).isLt
  rw [State.jumpOffset, BitVec.toNat_add_of_lt (by rw [toNat_zextAddr, toNat_zextByte]; omega), toNat_zextAddr,
    toNat_zextByte]

/-! ### Jumps -/

/-- `PC` is in no frame. -/
theorem RegisterFrame.setPc {ds : List Reg} {s t : State} (h : RegisterFrame ds s t) (w : Word) :
    RegisterFrame ds s (t.setPc w) := { h with }

/-- `JP addr`, in one equation (R84). -/
theorem exec_jpAddr (nnn : Addr) (s : State) : exec (.jpAddr nnn) s = .next (s.advance.setPc (zextAddr nnn)) := rfl

/-- `JP V0+addr`, in one equation (R85). -/
theorem exec_jpV0Addr (nnn : Addr) (s : State) :
    exec (.jpV0Addr nnn) s = .next (s.advance.setPc (s.advance.jumpOffset nnn)) := rfl

/-- Settles O10: the advanced state with `PC` replaced by the zero-extended address. -/
theorem jumpSetsPc : Obligations.JumpSetsPc := fun nnn s =>
  ⟨decode_encode (.jpAddr nnn) rfl, _, exec_jpAddr nnn s, toNat_zextAddr nnn, (registerFrame_advance s).setPc _⟩

/-- Settles O11: the advanced state with `PC` replaced by the sum, which advancing leaves the same and which does not wrap. -/
theorem jumpOffsetAddsV0 : Obligations.JumpOffsetAddsV0 := fun nnn s =>
  ⟨decode_encode (.jpV0Addr nnn) rfl, _, exec_jpV0Addr nnn s, toNat_jumpOffset s.advance nnn,
    (registerFrame_advance s).setPc _⟩

/-! ### `CALL`, and the `RET` that undoes it -/

/-- Settles O12: `CALL` replaces only the stack, `SP` and `PC` of the advanced state, and the push writes one entry. -/
theorem callPushesReturnAddress : Obligations.CallPushesReturnAddress := by
  refine fun nnn s => ⟨decode_encode (.callAddr nnn) rfl, fun hfull => ?_⟩
  obtain ⟨hregs, hindex, -, hmemory, hscreen, htimers, hfault⟩ := registerFrame_advance s
  have hentry := fun k => stackRead_stackWrite s.stack s.sp k (s.pc + 2)
  exact ⟨_, exec_callAddr_ok s nnn hfull, toNat_zextAddr nnn, rfl, (hentry s.sp).trans (if_pos rfl),
    fun k hk => (hentry k).trans (if_neg hk), hregs, hindex, hmemory, hscreen, htimers, hfault⟩

/-- Settles O14: the `CALL` left the return address at the old `SP`, which is the entry the `RET` pops. -/
theorem returnUndoesCall : Obligations.ReturnUndoesCall := by
  intro nnn s t u hcall hfull husp huentry
  obtain ⟨t', hcall', -, htsp, htentry, -⟩ := (callPushesReturnAddress nnn s).2 hfull
  cases hcall.symm.trans hcall'
  have hsp : u.sp = s.sp + 1 := husp.trans htsp
  obtain ⟨v, hret, hpc, hvsp, -⟩ := returnPopsTheStack.2 u (by omega)
  rw [hsp, Nat.add_sub_cancel] at hpc hvsp
  exact ⟨v, hret, hpc.trans (huentry.trans htentry), hvsp⟩

end Sys2Proof.Machine
end

section
/-! SUPPORT. The statement of 42_skip.md: the comparing skips. Each commits the advanced state with `PC` advanced once more if
its condition holds, so that the frame is that of the advanced state. -/

namespace Sys2Proof.Machine

variable {s : State}

/-! ### One skip, whatever its condition (R13, R22) -/

/-- A skip leaves `PC` after this instruction, or after the next one if its condition holds. -/
theorem advance_skipIf_pc (c : Bool) : (s.advance.skipIf c).pc = if c then s.pc + 4 else s.pc + 2 := by
  cases c with
  | false => exact advance_pc s
  | true => exact (congrArg (· + 2) (advance_pc s)).trans (BitVec.add_assoc s.pc 2 2)

/-- A skip writes `PC` only. -/
theorem RegisterFrame.skipIf {ds : List Reg} {t : State} (h : RegisterFrame ds s t) (c : Bool) :
    RegisterFrame ds s (t.skipIf c) := by
  cases c with
  | false => exact h
  | true => exact h.setPc _

/-- An instruction that is the shared skip operation completes, and writes `PC` only. -/
theorem completes_of_exec_skipIf {i : Instr} {c : Bool} (h : exec i s = .next (s.advance.skipIf c)) :
    ∃ t : State, exec i s = .next t ∧ t.pc = (if c then s.pc + 4 else s.pc + 2) ∧ RegisterFrame [] s t :=
  ⟨_, h, advance_skipIf_pc c, (registerFrame_advance s).skipIf c⟩

/-! ### The two conditions (R88 to R91) -/

/-- A skip on equality (R88, R90). -/
theorem completes_of_exec_skipIf_beq {i : Instr} {a b : Byte} (h : exec i s = .next (s.advance.skipIf (a == b))) :
    ∃ t : State, exec i s = .next t ∧ t.pc = (if a = b then s.pc + 4 else s.pc + 2) ∧ RegisterFrame [] s t := by
  simpa only [beq_iff_eq] using completes_of_exec_skipIf h

/-- A skip on difference (R89, R91). -/
theorem completes_of_exec_skipIf_bne {i : Instr} {a b : Byte} (h : exec i s = .next (s.advance.skipIf (a != b))) :
    ∃ t : State, exec i s = .next t ∧ t.pc = (if a = b then s.pc + 2 else s.pc + 4) ∧ RegisterFrame [] s t := by
  simpa only [bne_iff_ne, ne_eq, ite_not] using completes_of_exec_skipIf h

/-- Settles O15: each is the shared skip on equality or on difference, and advancing leaves its operands the same. -/
theorem compareSkips : Obligations.CompareSkips := fun x y kk _ =>
  ⟨decode_encode (.seVxByte x kk) rfl, decode_encode (.sneVxByte x kk) rfl, decode_encode (.seVxVy x y) rfl,
    decode_encode (.sneVxVy x y) rfl, completes_of_exec_skipIf_beq rfl, completes_of_exec_skipIf_bne rfl,
    completes_of_exec_skipIf_beq rfl, completes_of_exec_skipIf_bne rfl⟩

end Sys2Proof.Machine
end

section
/-! SUPPORT. The statements of 43_load_logic.md: the loads and logical operations, which write a result without a flag into the
advanced state, and `LD I,addr`, which replaces `I` of it. -/

namespace Sys2Proof.Machine

variable {s : State}

/-! ### One result without a flag (R109) -/

/-- A write to a register is in the frame that allows that register. -/
theorem RegisterFrame.setV {ds : List Reg} {t : State} (h : RegisterFrame ds s t) (x : Reg) (b : Byte) :
    RegisterFrame (x :: ds) s (t.setV x b) where
  regs r hr := (getV_setV_of_ne t x r b (List.ne_of_not_mem_cons hr)).trans (h.regs r (List.not_mem_of_not_mem_cons hr))
  index := h.index
  stack := h.stack
  memory := h.memory
  screen := h.screen
  timers := h.timers
  fault := h.fault

/-- An instruction that writes back a result without a flag completes, and writes that register and `PC` only. -/
theorem completes_of_exec_writeResult_noflag {i : Instr} {x : Reg} {b : Byte}
    (h : exec i s = .next (s.advance.writeResult x (b, none))) :
    ∃ t : State, exec i s = .next t ∧ t.getV x = b ∧ t.pc = s.pc + 2 ∧ RegisterFrame [x] s t :=
  ⟨_, h, getV_setV_same s.advance x b, advance_pc s, (registerFrame_advance s).setV x b⟩

/-! ### The statements -/

/-- Settles O16: each operation of the ALU answers its result and no flag, and advancing leaves its operands the same. -/
theorem loadAndLogicResults : Obligations.LoadAndLogicResults := fun x y kk _ =>
  ⟨decode_encode (.ldVxByte x kk) rfl, decode_encode (.ldVxVy x y) rfl, decode_encode (.orVxVy x y) rfl,
    decode_encode (.andVxVy x y) rfl, decode_encode (.xorVxVy x y) rfl, completes_of_exec_writeResult_noflag rfl,
    completes_of_exec_writeResult_noflag rfl, completes_of_exec_writeResult_noflag rfl,
    completes_of_exec_writeResult_noflag rfl, completes_of_exec_writeResult_noflag rfl⟩

/-- `LD I,addr`, in one equation (R98). -/
theorem exec_ldIAddr (nnn : Addr) (s : State) : exec (.ldIAddr nnn) s = .next (s.advance.setI (zextAddr nnn)) := rfl

/-- Settles O17: the advanced state with `I` replaced by the zero-extended address. -/
theorem loadIndexAddress : Obligations.LoadIndexAddress := by
  refine fun nnn s => ⟨decode_encode (.ldIAddr nnn) rfl, ?_⟩
  obtain ⟨hregs, -, hstack, hmemory, hscreen, htimers, hfault⟩ := registerFrame_advance s
  exact ⟨_, exec_ldIAddr nnn s, toNat_zextAddr nnn, advance_pc s, hregs, hstack, hmemory, hscreen, htimers, hfault⟩

end Sys2Proof.Machine
end

section
/-! SUPPORT. The statements of 44_arith_shift.md. The ALU instructions write a result into the advanced state, `ADD`, `SUB`,
`SUBN` and the shifts then a flag; `ADD I,Vx` writes `I` and a flag. Each flag is read as the comparison of numbers it
decides. -/

namespace Sys2Proof.Machine

variable {s : State}

/-! ### Results as numbers (R100, R107) -/

/-- Adding 256 first, a difference modulo 256 needs no negative number (R100). -/
theorem toNat_byte_sub (a b : Byte) : (a - b).toNat = (a.toNat + 256 - b.toNat) % 256 := by
  rw [BitVec.toNat_sub]
  have hb := b.isLt
  omega

/-- A left shift by one doubles, modulo 256 (R107). -/
theorem toNat_byte_shiftLeft_one (a : Byte) : (a <<< 1).toNat = a.toNat * 2 % 256 := by
  rw [BitVec.toNat_shiftLeft, Nat.shiftLeft_eq]

/-! ### Flags as comparisons (R102 to R107) -/

/-- The carry of an addition (R102). -/
theorem carryFlag_iff (a b : Byte) : carryFlag a b = true ↔ a.toNat + b.toNat > 255 := decide_eq_true_iff

/-- The flag of a subtraction (R104, R105). -/
theorem greaterFlag_iff (a b : Byte) : greaterFlag a b = true ↔ a.toNat > b.toNat := decide_eq_true_iff

/-- The bit a right shift moves out says whether the byte is odd (R106). -/
theorem shrFlag_iff (a : Byte) : shrFlag a = true ↔ a.toNat % 2 = 1 := by
  rw [shrFlag, BitVec.getLsbD, Nat.testBit_zero, decide_eq_true_iff]

/-- The bit a left shift moves out says whether the byte is in the upper half (R107). -/
theorem shlFlag_iff (a : Byte) : shlFlag a = true ↔ a.toNat ≥ 128 :=
  calc shlFlag a = true
    _ ↔ a.msb = true := by rw [BitVec.msb_eq_getLsbD_last]; rfl
    _ ↔ a.toNat ≥ 128 := by rw [BitVec.msb_eq_decide]; exact decide_eq_true_iff

/-- The range flag of `ADD I,Vx`, for either value of `ADDI_STRICT` (R103). -/
theorem rangeFlag_iff (strict : Bool) (sum : Nat) :
    rangeFlag strict sum = true ↔ if strict = true then sum > 0x1000 else sum ≥ 0x1000 := by
  cases strict <;> exact decide_eq_true_iff

/-- `VF` holding a flag says whether the comparison that the flag decides holds (R11). -/
theorem flagIs_of_getV_VF {t : State} {f : Bool} {p : Prop} (h : t.getV regVF = flagByte f) (hp : f = true ↔ p) :
    FlagIs t p := by
  cases f with
  | true => exact ⟨fun _ => h, fun hn => absurd (hp.mp rfl) hn⟩
  | false => exact ⟨fun hpos => absurd (hp.mpr hpos) Bool.false_ne_true, fun _ => h⟩

/-! ### One result, and its flag after it (R108, R109) -/

/-- A frame that allows more registers says less. -/
theorem RegisterFrame.mono {ds es : List Reg} {t : State} (h : RegisterFrame ds s t) (hsub : ds ⊆ es) :
    RegisterFrame es s t :=
  { h with regs := fun r hr => h.regs r fun hd => hr (hsub hd) }

/-- An instruction that writes back a result and its flag completes: the register holds the result unless it is `VF`, which
holds the flag, and only the two and `PC` are written. -/
theorem completes_of_exec_writeResult_flag {i : Instr} {x : Reg} {b : Byte} {f : Bool} {n : Nat} {p : Prop}
    (h : exec i s = .next (s.advance.writeResult x (b, some f))) (hb : b.toNat = n) (hp : f = true ↔ p) :
    ∃ t : State, exec i s = .next t ∧ (x ≠ regVF → (t.getV x).toNat = n) ∧ FlagIs t p ∧ t.pc = s.pc + 2 ∧
      RegisterFrame [x, regVF] s t := by
  have hget := fun r => getV_writeResult_flag s.advance x r b f
  have hframe := ((registerFrame_advance s).setV x b).setV regVF (flagByte f)
  refine ⟨_, h, fun hx => ?_, flagIs_of_getV_VF ((hget regVF).trans (if_pos rfl)) hp, advance_pc s,
    hframe.mono (List.Perm.swap x regVF []).subset⟩
  rw [hget x, if_neg hx, if_pos rfl, hb]

/-! ### The statements -/

/-- Settles O18: the ALU's sum without a flag, which is that of the numbers modulo 256. -/
theorem addImmediateWraps : Obligations.AddImmediateWraps := by
  refine fun x kk s => ⟨decode_encode (.addVxByte x kk) rfl, ?_⟩
  obtain ⟨t, hexec, hresult, hrest⟩ :=
    completes_of_exec_writeResult_noflag (i := .addVxByte x kk) (s := s) (x := x) (b := s.getV x + kk) rfl
  exact ⟨t, hexec, by rw [hresult, BitVec.toNat_add], hrest⟩

/-- Settles O19: each is the ALU's sum or difference with its flag, of operands that advancing leaves the same. -/
theorem addSubtractResultsAndFlags : Obligations.AddSubtractResultsAndFlags := fun x y s =>
  ⟨decode_encode (.addVxVy x y) rfl, decode_encode (.subVxVy x y) rfl, decode_encode (.subnVxVy x y) rfl,
    completes_of_exec_writeResult_flag rfl (BitVec.toNat_add (s.getV x) (s.getV y)) (carryFlag_iff (s.getV x) (s.getV y)),
    completes_of_exec_writeResult_flag rfl (toNat_byte_sub (s.getV x) (s.getV y)) (greaterFlag_iff (s.getV x) (s.getV y)),
    completes_of_exec_writeResult_flag rfl (toNat_byte_sub (s.getV y) (s.getV x)) (greaterFlag_iff (s.getV y) (s.getV x))⟩

/-- Settles O20: each is the ALU's shift of the register with the bit shifted out, in which the field `y` is not read. -/
theorem shiftsByOneAndFlags : Obligations.ShiftsByOneAndFlags := fun x y s =>
  ⟨decode_encode (.shrVx x y) rfl, decode_encode (.shlVx x y) rfl,
    completes_of_exec_writeResult_flag rfl (BitVec.toNat_ushiftRight (s.getV x) 1) (shrFlag_iff (s.getV x)),
    completes_of_exec_writeResult_flag rfl (toNat_byte_shiftLeft_one (s.getV x)) (shlFlag_iff (s.getV x))⟩

/-- `ADD I,Vx`, in one equation (R103). -/
theorem exec_addIVx (x : Reg) (s : State) :
    exec (.addIVx x) s = .next (s.advance.addToIndex s.params.addiStrict x) := rfl

/-- Settles O21: only `I` and `VF` of the advanced state are replaced, and the range flag is of the sum that did not wrap. -/
theorem addToIndexAndRangeFlag : Obligations.AddToIndexAndRangeFlag := by
  refine fun x s => ⟨decode_encode (.addIVx x) rfl, ?_⟩
  have hi : (s.advance.addToIndex s.params.addiStrict x).i.toNat = (s.i.toNat + (s.getV x).toNat) % 65536 :=
    BitVec.toNat_ofNat _ 16
  have hflag := flagIs_of_getV_VF (addToIndex_getV_VF s.advance s.params.addiStrict x) (rangeFlag_iff _ _)
  have hregs : SameRegsExcept [regVF] s (s.advance.addToIndex s.params.addiStrict x) := fun r hr =>
    addToIndex_getV_of_ne s.advance _ x r (List.ne_of_not_mem_cons hr)
  obtain ⟨-, -, hstack, hmemory, hscreen, htimers, hfault⟩ := registerFrame_advance s
  exact ⟨_, exec_addIVx x s, hi, hflag, advance_pc s, hregs, hstack, hmemory, hscreen, htimers, hfault⟩

end Sys2Proof.Machine
end

section
/-! SUPPORT. The statements of 45_random_draw.md: `RND`, and `DRW`, whose closed form of the sprite loop (Laws/Draw.lean) is
read in the terms of Safety.lean. -/

namespace Sys2Proof.Machine

variable {s t : State}

/-! ### `RND` (R113, R161) -/

/-- Settles O22: the ALU's AND without a flag, of the byte that the inputs of this step settle. -/
theorem randomByteIsMasked : Obligations.RandomByteIsMasked := by
  refine fun x kk s => ⟨decode_encode (.rndVxByte x kk) rfl, ?_, fun r => ⟨[⟨r, false, none⟩], ?_⟩⟩
  · obtain ⟨t, hexec, hresult, hrest⟩ := completes_of_exec_writeResult_noflag
      (i := .rndVxByte x kk) (s := s) (x := x) (b := s.inputs.rnd &&& kk) rfl
    have hmasked : t.getV x &&& ~~~kk = 0 := by
      rw [hresult, BitVec.and_assoc, BitVec.and_not_self]
      exact BitVec.and_zero
    exact ⟨t, hexec, hresult, hmasked, hrest⟩
  · obtain ⟨t, hexec, hresult, -⟩ := completes_of_exec_writeResult_noflag
      (i := .rndVxByte x kk) (s := { s with env := [⟨r, false, none⟩] }) (x := x) (b := r &&& kk) rfl
    exact ⟨t, hexec, hresult⟩

/-! ### When `DRW` faults (R114, R141) -/

/-- `DRW` raises no fault when it reads no row, or only rows in memory. -/
theorem faultOf_drw_none {x y : Reg} {n : Nibble} (h : rowsRead s y n = 0 ∨ s.i.toNat + rowsRead s y n ≤ 0x1000) :
    faultOf (.drwVxVyNibble x y n) s = none :=
  if_neg (by omega)

/-- Settles O24: the fault of `DRW` is the one of its range check, taken from the state before the step. -/
theorem drawOutOfMemoryHalts : Obligations.DrawOutOfMemoryHalts := fun _ _ _ s hrows hout =>
  exec_of_faultOf_some s _ _ (if_pos ⟨hrows, hout⟩)

/-! ### The sprite of a state, pixel by pixel (R114) -/

/-- The pixels the sprite loop toggles, in the words of the rules: no pixel lies below the bottom edge, so clipping the rows there
loses none. -/
theorem spritePixel_eq_spriteBit (s : State) (x y : Reg) (n : Nibble) (px : Fin 64) (py : Fin 32) :
    spritePixel (fun r => s.byteAt (s.base + r)) ((s.getV x).toNat % 64) ((s.getV y).toNat % 32)
      (visibleRows n ((s.getV y).toNat % 32)) px py = spriteBit s x y n px py := by
  have hpy := py.isLt
  have hclip : ∀ x0 y0 : Nat, ((y0 ≤ py.val ∧ py.val < y0 + visibleRows n y0) ∧ (x0 ≤ px.val ∧ px.val < x0 + 8)) ↔
      (x0 ≤ px.val ∧ px.val < x0 + 8 ∧ y0 ≤ py.val ∧ py.val < y0 + n.toNat) := by
    intro x0 y0; unfold visibleRows; omega
  rw [spritePixel, rowBit, ← Bool.and_assoc, ← Bool.decide_and, decide_eq_decide.mpr (hclip _ _)]
  rfl

/-- The framebuffer with the sprite drawn: a pixel flips where the sprite has a visible 1 bit. -/
theorem pixelActive_sprite (s : State) (x y : Reg) (n : Nibble) (px : Fin 64) (py : Fin 32) :
    pixelActive (s.sprite x y n).fb px py = (spriteBit s x y n px py ^^ pixelActive s.fb px py) := by
  rw [← spritePixel_eq_spriteBit]
  exact pixelActive_drawSprite ..

/-- The sprite collides when one of its visible 1 bits finds its pixel on. -/
theorem collision_sprite_iff (s : State) (x y : Reg) (n : Nibble) : (s.sprite x y n).collision = true ↔
    ∃ (px : Fin 64) (py : Fin 32), spriteBit s x y n px py = true ∧ pixelActive s.fb px py = true := by
  simp only [← spritePixel_eq_spriteBit]
  exact collision_drawSprite ..

/-! ### One draw -/

/-- Settles O23: only the framebuffer and `VF` of the advanced state are replaced, by the sprite of a state that advancing leaves
the same. -/
theorem drawFlipsSpritePixels : Obligations.DrawFlipsSpritePixels := by
  refine fun x y n s => ⟨decode_encode (.drwVxVyNibble x y n) rfl, fun hin => ?_⟩
  have hflag := flagIs_of_getV_VF (getV_setFlag_VF (s.advance.setFb (s.advance.sprite x y n).fb) _)
    (collision_sprite_iff s.advance x y n)
  obtain ⟨hregs, hindex, hstack, hmemory, -, htimers, hfault⟩ :=
    (registerFrame_advance s).setV regVF (flagByte (s.advance.sprite x y n).collision)
  exact ⟨_, exec_drw_ok s x y n (faultOf_drw_none hin), pixelActive_sprite s.advance x y n, hflag, advance_pc s, hregs,
    hindex, hstack, hmemory, htimers, hfault⟩

/-! ### An identical draw after it (95_test_vectors.md W7) -/

/-- Two states that agree on the coordinates, `I` and memory have the same sprite. -/
theorem spriteBit_congr {x y : Reg} (hx : t.getV x = s.getV x) (hy : t.getV y = s.getV y) (hi : SameIndex s t)
    (hm : SameMemory s t) (n : Nibble) (px : Fin 64) (py : Fin 32) : spriteBit t x y n px py = spriteBit s x y n px py := by
  have hi : t.i = s.i := hi
  have hm : ∀ a, t.byteAt a = s.byteAt a := hm
  simp only [spriteBit, hx, hy, hi, hm]

/-- Two states that agree on the row coordinate read the same number of rows. -/
theorem rowsRead_congr {y : Reg} (hy : t.getV y = s.getV y) (n : Nibble) : rowsRead t y n = rowsRead s y n := by
  unfold rowsRead
  rw [hy]

/-- Settles O25: the first draw keeps all that the sprite depends on, so the second flips the same pixels back, and the pixels it
finds on are those that were off. -/
theorem drawingTwiceRestoresScreen : Obligations.DrawingTwiceRestoresScreen := by
  intro x y n s t u hx hy hin hst htu
  obtain ⟨t', hst', hpixT, -, -, hregs, hindex, -, hmemory, -⟩ := (drawFlipsSpritePixels x y n s).2 hin
  cases hst.symm.trans hst'
  have hgetX : t.getV x = s.getV x := hregs x (mt List.eq_of_mem_singleton hx)
  have hgetY : t.getV y = s.getV y := hregs y (mt List.eq_of_mem_singleton hy)
  have hinT : rowsRead t y n = 0 ∨ t.i.toNat + rowsRead t y n ≤ 0x1000 := by
    rw [rowsRead_congr hgetY, show t.i = s.i from hindex]; exact hin
  have hbit := spriteBit_congr hgetX hgetY hindex hmemory n
  obtain ⟨u', htu', hpixU, hflag, -⟩ := (drawFlipsSpritePixels x y n t).2 hinT
  cases htu.symm.trans htu'
  constructor
  · intro px py
    rw [hpixU, hbit, hpixT, ← Bool.xor_assoc, Bool.xor_self, Bool.false_xor]
  · have hon : ∀ px py, (spriteBit t x y n px py = true ∧ pixelActive t.fb px py = true) ↔
        (spriteBit s x y n px py = true ∧ pixelActive s.fb px py = false) := by
      intro px py
      rw [hbit, hpixT]
      refine and_congr_right fun hb => ?_
      rw [hb, Bool.true_xor, Bool.not_eq_true']
    simpa only [hon] using hflag

end Sys2Proof.Machine
end

section
/-! SUPPORT. The statements of 46_key_timer.md: the key skips and the timer loads, each the advanced state with one field
replaced, and `LD Vx,K`, which without a key leaves `PC` where it was, so that a run stays at it until a key comes. -/

namespace Sys2Proof.Machine

variable {s : State}

/-! ### The key skips (R120, R121, R159) -/

/-- A key is pressed when it is one the Keypad knows and the step's answer says so (R159). -/
theorem keyAnswer_iff (p : Params) (inp : StepInputs) (k : Byte) :
    keyAnswer p inp k = true ↔ k.toNat < p.nkeys ∧ inp.keyPressed = true := by
  rw [keyAnswer, Bool.and_eq_true, decide_eq_true_iff]

/-- Settles O26: each is the shared skip on the Keypad's answer or on its negation, and advancing leaves `V[x]` the same. -/
theorem keySkips : Obligations.KeySkips := by
  refine fun x s => ⟨decode_encode (.skpVx x) rfl, decode_encode (.sknpVx x) rfl, ?_, ?_⟩
  · obtain ⟨t, hexec, hpc, hframe⟩ :=
      completes_of_exec_skipIf (i := .skpVx x) (s := s) (c := keyAnswer s.params s.inputs (s.getV x)) rfl
    exact ⟨t, hexec, hpc.trans (if_congr (keyAnswer_iff ..) rfl rfl), hframe⟩
  · obtain ⟨t, hexec, hpc, hframe⟩ :=
      completes_of_exec_skipIf (i := .sknpVx x) (s := s) (c := !keyAnswer s.params s.inputs (s.getV x)) rfl
    simp only [Bool.not_iff_not, ite_not] at hpc
    exact ⟨t, hexec, hpc.trans (if_congr (keyAnswer_iff ..) rfl rfl), hframe⟩

/-! ### The timer loads (R122 to R124) -/

/-- `LD Vx,DT`, in one equation (R122). -/
theorem exec_ldVxDT (x : Reg) (s : State) : exec (.ldVxDT x) s = .next (s.advance.setV x s.advance.dt) := rfl

/-- `LD DT,Vx`, in one equation (R123). -/
theorem exec_ldDTVx (x : Reg) (s : State) : exec (.ldDTVx x) s = .next (s.advance.setDT (s.getV x)) := rfl

/-- `LD ST,Vx`, in one equation (R124). -/
theorem exec_ldSTVx (x : Reg) (s : State) : exec (.ldSTVx x) s = .next (s.advance.setST (s.getV x)) := rfl

/-- A timer loses 1, floored at 0, in the step that finds the cycle counter at 2 (R16, R151). -/
theorem tickTimer_toNat_of_two (c : Fin Config.timerDiv) (b : Byte) :
    (tickTimer c b).toNat = if c.val = 2 then b.toNat - 1 else b.toNat := by
  have hc : c.val < 3 := c.isLt
  have hdue : (c.val + 1) % 3 = 0 ↔ c.val = 2 := by omega
  rw [tickTimer_toNat]
  exact if_congr hdue rfl rfl

/-- Settles O27: the advanced state, whose timer phase is done, with `V[x]` or one timer replaced. -/
theorem timerLoads : Obligations.TimerLoads := by
  refine fun x s => ⟨decode_encode (.ldVxDT x) rfl, decode_encode (.ldDTVx x) rfl, decode_encode (.ldSTVx x) rfl, ?_⟩
  have hread := getV_setV_same s.advance x s.advance.dt
  have hvalue := (congrArg BitVec.toNat hread).trans (tickTimer_toNat_of_two s.cyc s.dt)
  have hframe := registerFrame_advance s
  obtain ⟨hregs, hindex, hstack, hmemory, hscreen, ⟨hcyc, hdt, hst⟩, hfault⟩ := registerFrame_advance s
  exact ⟨⟨_, exec_ldVxDT x s, hvalue, hread, advance_pc s, hframe.setV x _⟩,
    ⟨_, exec_ldDTVx x s, rfl, hst, hcyc, advance_pc s, hregs, hindex, hstack, hmemory, hscreen, hfault⟩,
    ⟨_, exec_ldSTVx x s, rfl, hdt, hcyc, advance_pc s, hregs, hindex, hstack, hmemory, hscreen, hfault⟩⟩

/-! ### The key-wait (R125, R160) -/

/-- `LD Vx,K`, in one equation (R125). -/
theorem exec_ldVxK (x : Reg) (s : State) :
    exec (.ldVxK x) s = .next (s.advance.afterKeyWait x (keyIndexAnswer s.params s.inputs)) := rfl

/-- A key-wait that is answered a key stores it (R125). -/
theorem exec_ldVxK_some (x : Reg) {k : Byte} (h : keyIndexAnswer s.params s.inputs = some k) :
    exec (.ldVxK x) s = .next (s.advance.setV x k) := by
  rw [exec_ldVxK, h, afterKeyWait_some]

/-- A key-wait that is answered no key puts `PC` back to itself (R125). -/
theorem exec_ldVxK_none (x : Reg) (h : keyIndexAnswer s.params s.inputs = none) :
    exec (.ldVxK x) s = .next (s.advance.setPc s.pc) := by
  rw [exec_ldVxK, h, afterKeyWait_none, advance_pc, BitVec.add_sub_cancel]

/-- Settles O28: by the Keypad's answer, the advanced state with `V[x]` or with `PC` replaced. -/
theorem keyWaitStoresOrRetries : Obligations.KeyWaitStoresOrRetries := by
  refine fun x s => ⟨decode_encode (.ldVxK x) rfl, ?_⟩
  have hframe := registerFrame_advance s
  cases h : keyIndexAnswer s.params s.inputs with
  | none => exact ⟨_, exec_ldVxK_none x h, nofun, fun _ => ⟨rfl, hframe.setPc s.pc⟩⟩
  | some key =>
    refine ⟨_, exec_ldVxK_some x h, fun k hk => ?_, nofun⟩
    obtain rfl := Option.some.inj hk
    exact ⟨getV_setV_same _ x key, lt_of_keyIndexAnswer _ _ key h, advance_pc s, hframe.setV x key⟩

/-- Settles O29, by induction on the number of steps without a key: each leaves a state that fetches the same key-wait, with
the inputs moved up by one. -/
theorem keyWaitSuspends : Obligations.KeyWaitSuspends := by
  intro n x w s hf hw hi hnone
  induction n generalizing s with
  | zero =>
    refine ⟨s, rfl, rfl, rfl, hf, fun _ => rfl, fun key hkey => ?_⟩
    have hs : step s = .next (s.advance.setV x key) := by
      rw [step_of_fetch s hf w hw, hi, exec_ldVxK_some x (inputs_eq_inputsAt_zero s ▸ hkey)]
    exact ⟨_, hs, getV_setV_same _ x key, advance_pc s⟩
  | succ n ih =>
    have hexec := exec_ldVxK_none x (inputs_eq_inputsAt_zero s ▸ hnone 0 n.succ_pos)
    have hs : step s = .next (s.advance.setPc s.pc) := by rw [step_of_fetch s hf w hw, hi, hexec]
    have hinputs : ∀ k, (s.advance.setPc s.pc).inputsAt k = s.inputsAt (k + 1) :=
      (committedStep_of_exec rfl hexec).committed.inputsAt_eq
    obtain ⟨t, hrun, hrest⟩ := ih (s.advance.setPc s.pc) hf hw fun k hk => by
      rw [hinputs]; exact hnone (k + 1) (Nat.succ_lt_succ hk)
    rw [hinputs] at hrest
    exact ⟨t, (run_succ_of_next n s _ hs).trans hrun, hrest⟩

end Sys2Proof.Machine
end

section
/-! SUPPORT. The statements of 47_index_memory.md: `LD F,Vx`, which replaces `I` of the advanced state, and the transfers between
memory and registers, which write a block of one or the other into it, or raise the fault of their range check and write nothing. -/

namespace Sys2Proof.Machine

variable {s : State}

/-! ### The font pointer (R128) -/

/-- The font address of a byte does not wrap at 16 bits (R128). -/
theorem toNat_glyphAddr (b : Byte) : (glyphAddr b).toNat = 0x50 + 5 * b.toNat := by
  have hb := b.isLt
  exact (BitVec.toNat_ofNat _ 16).trans (Nat.mod_eq_of_lt (by simp only [Config.fontBase, Config.glyphBytes]; omega))

/-- `LD F,Vx`, in one equation (R128). -/
theorem exec_ldFVx (x : Reg) (s : State) : exec (.ldFVx x) s = .next (s.advance.setI (glyphAddr (s.getV x))) := rfl

/-- Settles O30: the advanced state with `I` replaced by a font address that does not wrap. -/
theorem fontPointer : Obligations.FontPointer := by
  refine fun x s => ⟨decode_encode (.ldFVx x) rfl, ?_⟩
  obtain ⟨hregs, -, hstack, hmemory, hscreen, htimers, hfault⟩ := registerFrame_advance s
  exact ⟨_, exec_ldFVx x s, toNat_glyphAddr _, advance_pc s, hregs, hstack, hmemory, hscreen, htimers, hfault⟩

/-! ### The stores (R129, R130) -/

/-- Storing `n` bytes into the advanced state changes only those bytes of it (R47). -/
theorem frame_of_eq_advance_store {t : State} {base n : Nat} {bs : List Byte} (ht : t = s.advance.store base bs)
    (hlen : bs.length = n) :
    SameMemoryOutside base n s t ∧ t.pc = s.pc + 2 ∧ SameRegsExcept [] s t ∧ SameIndex s t ∧ SameStack s t ∧
      SameScreen s t ∧ TimersTicked s t ∧ SameFault s t := by
  subst ht
  obtain ⟨hregs, hindex, hstack, -, hscreen, htimers, hfault⟩ := registerFrame_advance s
  exact ⟨fun a ha => byteAt_store_of_outside s.advance base a bs (hlen ▸ ha), advance_pc s, hregs, hindex, hstack,
    hscreen, htimers, hfault⟩

/-- Every digit of a byte fits in a byte (R129). -/
theorem map_toNat_bcdDigits (b : Byte) :
    (bcdDigits b).map BitVec.toNat = [b.toNat / 100, b.toNat / 10 % 10, b.toNat % 10] := by
  have hb := b.isLt
  simp only [bcdDigits, List.map_cons, List.map_nil, BitVec.toNat_ofNat, List.cons.injEq, and_true]
  omega

/-- After `LD B,Vx` stored the digits of `b`, digit `j` lies at `base + j` (R129). -/
theorem toNat_byteAt_store_bcdDigits {base j d : Nat} {b : Byte} (hin : base + 3 ≤ 0x1000) (hm : s.MemoryCanonical)
    (hd : [b.toNat / 100, b.toNat / 10 % 10, b.toNat % 10][j]? = some d) :
    ((s.store base (bcdDigits b)).byteAt (base + j)).toNat = d := by
  rw [← map_toNat_bcdDigits, List.getElem?_map, Option.map_eq_some_iff] at hd
  obtain ⟨c, hc, rfl⟩ := hd
  obtain ⟨hj, rfl⟩ := List.getElem?_eq_some_iff.mp hc
  exact congrArg BitVec.toNat (byteAt_store_inside s base j _ hj hin hm)

/-- Settles O31: the three digits stored into the advanced state, or the fault of the range check, taken from the state before. -/
theorem bcdStoresThreeDigits : Obligations.BcdStoresThreeDigits := by
  refine fun x s => ⟨decode_encode (.ldBVx x) rfl, fun hm hin => ?_, fun hout => ?_⟩
  · have hok : faultOf (.ldBVx x) s = none := if_neg (by omega)
    have hdigit := fun j d => toNat_byteAt_store_bcdDigits (s := s.advance) (base := s.i.toNat) (j := j) (d := d)
      (b := s.getV x) (by omega) hm
    exact ⟨_, exec_ldBVx_ok s x hok, hdigit 0 _ rfl, hdigit 1 _ rfl, hdigit 2 _ rfl,
      frame_of_eq_advance_store rfl (bcdDigits_length _)⟩
  · exact exec_of_faultOf_some s (.ldBVx x) _ (if_pos (by omega))

/-- Settles O32: the registers stored into the advanced state, or the fault of the range check, taken from the state before. -/
theorem blockStoreCopiesRegisters : Obligations.BlockStoreCopiesRegisters := by
  refine fun x s => ⟨decode_encode (.ldMemVx x) rfl, fun hm hin => ?_, fun hout => ?_⟩
  · have hok : faultOf (.ldMemVx x) s = none := if_neg (by omega)
    have hbyte := fun (r : Reg) (hr : r.toNat ≤ x.toNat) =>
      byteAt_store_firstRegs (s := s.advance) (base := s.i.toNat) r (Nat.lt_succ_of_le hr) (by omega) hm
    exact ⟨_, exec_ldMemVx_ok s x hok, hbyte, frame_of_eq_advance_store rfl (firstRegs_length s.advance _)⟩
  · exact exec_of_faultOf_some s (.ldMemVx x) _ (if_pos (by omega))

/-! ### The block load (R131) -/

/-- Loading registers `V[0]`..`V[x]` into the advanced state writes those registers only. -/
theorem registerFrame_loadRegs (x : Reg) (base : Nat) (s : State) :
    RegisterFrame (destinations (.ldVxMem x)) s (s.advance.loadRegs base (x.toNat + 1)) where
  regs r hr := getV_loadRegs_of_notMem x r s.advance base hr
  index := loadRegs_i s.advance base _
  stack := ⟨loadRegs_sp s.advance base _, loadRegs_stack s.advance base _⟩
  memory := loadRegs_byteAt s.advance base _
  screen px py := congrArg (pixelActive · px py) (loadRegs_fb s.advance base _)
  timers := ⟨loadRegs_cyc s.advance base _, loadRegs_dt s.advance base _, loadRegs_st s.advance base _⟩
  fault := loadRegs_fault s.advance base _

/-- Settles O33: the bytes loaded into the registers of the advanced state, or the fault of the range check, taken from the state
before. -/
theorem blockLoadFillsRegisters : Obligations.BlockLoadFillsRegisters := by
  refine fun x s => ⟨decode_encode (.ldVxMem x) rfl, fun hin => ?_, fun hout => ?_⟩
  · have hok : faultOf (.ldVxMem x) s = none := if_neg (by omega)
    have hget := getV_loadRegs s.advance s.i.toNat (x.toNat + 1) x.isLt
    obtain ⟨-, hindex, hstack, hmemory, hscreen, htimers, hfault⟩ := registerFrame_loadRegs x s.i.toNat s
    exact ⟨_, exec_ldVxMem_ok s x hok, fun r hr => (hget r).trans (if_pos (Nat.lt_succ_of_le hr)),
      fun r hr => (hget r).trans (if_neg (by omega)), loadRegs_pc s.advance _ _, hindex, hstack, hmemory, hscreen,
      htimers, hfault⟩
  · exact exec_of_faultOf_some s (.ldVxMem x) _ (if_pos (by omega))

end Sys2Proof.Machine
end

section
/-! SUPPORT. The statement of 48_unknown.md: `<unknown>` is the words of no row, and it is the advanced state. -/

namespace Sys2Proof.Machine

/-- `<unknown>`, in one equation (R134). -/
theorem exec_unknown (w : Word) (s : State) : exec (.unknown w) s = .next s.advance := rfl

/-- Settles O34: the decoder's `<unknown>` is the absence of a row, and the advanced state changes `PC` and the timers only. -/
theorem unknownDoesNothing : Obligations.UnknownDoesNothing := fun w s =>
  ⟨(decode_eq_unknown_iff w).symm, _, exec_unknown w s, advance_pc s, registerFrame_advance s⟩

end Sys2Proof.Machine
end

section
/-! SUPPORT. The statements of 60_exceptions.md: the faults a step takes and what they leave alone, the halted engine, the
timer phase of one step and of many, and the screen. -/

namespace Sys2Proof.Machine

variable {s t : State}

/-! ### The faults of the call stack (R142, R143) -/

/-- Settles O9: the fault of an empty stack is taken from the state before the step. -/
theorem returnOnEmptyStackHalts : Obligations.ReturnOnEmptyStackHalts := exec_ret_empty

/-- Settles O13: the fault of a full stack is taken from the state before the step. -/
theorem callAtFullDepthHalts : Obligations.CallAtFullDepthHalts := fun nnn s => exec_callAddr_full s nnn

/-! ### The halted engine (R145) -/

/-- A halted engine is stepped any number of times without effect. -/
theorem run_of_halted (n : Nat) (h : s.fault ≠ none) : Host.Core.run Sys2Proof.core n s = .next s := by
  induction n with
  | zero => rfl
  | succ n ih => exact (run_succ_of_next n s s (step_of_halted s h)).trans ih

/-- Settles O38, by induction on the number of steps. -/
theorem haltedEngineNeverChanges : Obligations.HaltedEngineNeverChanges := fun n _ => run_of_halted n

/-- A run that ends without a fault began without one: a halted engine does not change. -/
theorem fault_eq_none_of_run {n : Nat} (h : Host.Core.run Sys2Proof.core n s = .next t) (ht : t.fault = none) :
    s.fault = none := by
  by_contra hs
  cases (run_of_halted n hs).symm.trans h
  exact hs ht

/-! ### The faults a step takes (R140, R141, R144) -/

/-- A running engine's step: a fault is taken from the state before it, or the fetched instruction commits (R21). -/
theorem running_step_cases (hf : s.fault = none) (h : step s = .next t) :
    (∃ f, t = s.takeFault f) ∨ ∃ w, s.fetchWord = .ok w ∧ CommittedStep (decode w) s t := by
  cases hw : s.fetchWord with
  | error f =>
    cases (step_of_fetch_error s hf f hw).symm.trans h
    exact .inl ⟨f, rfl⟩
  | ok w =>
    obtain hc | ⟨f, -, ht⟩ := fetched_step_cases hf hw h
    · exact .inr ⟨w, rfl, hc⟩
    · exact .inl ⟨f, ht⟩

/-- A running engine's step that ends without a fault committed. -/
theorem committedStep_of_fault_eq_none (hf : s.fault = none) (h : step s = .next t) (ht : t.fault = none) :
    ∃ w, s.fetchWord = .ok w ∧ CommittedStep (decode w) s t := by
  obtain ⟨f, rfl⟩ | hc := running_step_cases hf h
  · cases ht
  · exact hc

/-- Settles O39: a committed step keeps `FAULT`, so the step that ends in a fault took it from the state before. -/
theorem faultsArePrecise : Obligations.FaultsArePrecise := by
  intro s t hf h ht
  obtain ⟨f, rfl⟩ | ⟨w, -, hc⟩ := running_step_cases hf h
  · rfl
  · exact absurd (hc.committed.fault.trans hf) ht

/-- A running engine that fetched `w` steps, and `FAULT` is then what the fault table gives the instruction. -/
theorem step_fault_of_fetch {w : Word} (hf : s.fault = none) (hw : s.fetchWord = .ok w) :
    ∃ t : State, step s = .next t ∧ t.fault = faultOf (decode w) s := by
  obtain ⟨hn, t, -, hs, hc⟩ | ⟨f, hq, hs⟩ := step_cases s w hf hw
  · exact ⟨t, hs, by rw [hn, hc.fault, hf]⟩
  · exact ⟨_, hs, hq.symm⟩

/-- Settles O40: by whether the engine runs, and whether a word can be fetched at `PC`. -/
theorem stepFaultsExactlyAsListed : Obligations.StepFaultsExactlyAsListed := by
  intro s
  by_cases hf : s.fault = none
  · by_cases hpc : s.pc.toNat ≤ 0xFFE
    · obtain ⟨t, hs, ht⟩ := step_fault_of_fetch hf (fetchWord_ok s hpc)
      exact ⟨t, hs, fun _ => ⟨fun _ => ht, fun hgt => absurd hpc hgt.not_ge⟩⟩
    · have hs := step_of_fetch_error s hf _ (fetchWord_error s (not_le.mp hpc))
      exact ⟨_, hs, fun _ => ⟨fun hle => absurd hle hpc, fun _ => rfl⟩⟩
  · exact ⟨s, step_of_halted s hf, fun h => absurd h hf⟩

/-! ### The timer phase (R151 to R153) -/

/-- Settles O42: the step committed, and a committed step ticks what its instruction does not set. -/
theorem timerPhaseInEveryStep : Obligations.TimerPhaseInEveryStep := by
  intro s t w hf hw h ht
  obtain hc | ⟨f, -, rfl⟩ := fetched_step_cases hf hw h
  · exact ⟨by rw [hc.committed.cyc, nextCyc_val], fun hne => by rw [hc.committed.dt hne, tickTimer_toNat],
      fun hne => by rw [hc.committed.st hne, tickTimer_toNat]⟩
  · cases ht

/-- None of the first `n` steps from `s` fetches an instruction that sets a timer. -/
def SetsNoTimer (n : Nat) (s : State) : Prop :=
  ∀ (k : Nat) (u : State) (w : Word) (x : Reg), k < n → Host.Core.run Sys2Proof.core k s = .next u →
    u.fetchWord = .ok w → decode w ≠ .ldDTVx x ∧ decode w ≠ .ldSTVx x

/-- The first step fetches no instruction that sets a timer. -/
theorem SetsNoTimer.head {n : Nat} {w : Word} (h : SetsNoTimer (n + 1) s) (hw : s.fetchWord = .ok w) :
    (∀ x, decode w ≠ .ldDTVx x) ∧ ∀ x, decode w ≠ .ldSTVx x :=
  forall_and.mp fun x => h 0 s w x n.succ_pos rfl hw

/-- The steps after the first fetch no instruction that sets a timer. -/
theorem SetsNoTimer.tail {n : Nat} (h : SetsNoTimer (n + 1) s) (hs : step s = .next t) : SetsNoTimer n t :=
  fun k u w x hk hrun => h (k + 1) u w x (Nat.succ_lt_succ hk) ((run_succ_of_next k s t hs).trans hrun)

/-- No step, no decrement (R152). -/
theorem decrementsIn_zero (c : Fin Config.timerDiv) : decrementsIn c 0 = 0 := Nat.div_eq_of_lt c.isLt

/-- The timer phase of one step and the decrements of `n` steps after it are the decrements of `n + 1` steps (R151, R152). -/
theorem tickTimer_toNat_sub_decrementsIn (c : Fin Config.timerDiv) (b : Byte) (n : Nat) :
    (tickTimer c b).toNat - decrementsIn (nextCyc c) n = b.toNat - decrementsIn c (n + 1) := by
  rw [tickTimer_toNat, decrementsIn_succ]
  split <;> omega

/-- Counting one step and then `n` more is counting `n + 1` (R151). -/
theorem nextCyc_val_add_mod (c : Fin Config.timerDiv) (n : Nat) : ((nextCyc c).val + n) % 3 = (c.val + (n + 1)) % 3 := by
  rw [nextCyc_val]
  omega

/-- The timers and the counter after `n` steps that set no timer, by induction on `n` (R152). -/
theorem timers_of_run {n : Nat} (hrun : Host.Core.run Sys2Proof.core n s = .next t) (ht : t.fault = none)
    (hno : SetsNoTimer n s) :
    t.dt.toNat = s.dt.toNat - decrementsIn s.cyc n ∧ t.st.toNat = s.st.toNat - decrementsIn s.cyc n ∧
      t.cyc.val = (s.cyc.val + n) % 3 := by
  induction n generalizing s with
  | zero =>
    cases hrun
    rw [decrementsIn_zero]
    exact ⟨rfl, rfl, (Nat.mod_eq_of_lt t.cyc.isLt).symm⟩
  | succ n ih =>
    have hf := fault_eq_none_of_run hrun ht
    obtain ⟨u, hs, -⟩ := stepFaultsExactlyAsListed s
    rw [run_succ_of_next n s u hs] at hrun
    obtain ⟨w, hw, hc⟩ := committedStep_of_fault_eq_none hf hs (fault_eq_none_of_run hrun ht)
    obtain ⟨hnoDT, hnoST⟩ := hno.head hw
    obtain ⟨hdt, hst, hcyc⟩ := ih hrun (hno.tail hs)
    rw [hc.committed.cyc] at hdt hst hcyc
    rw [hc.committed.dt hnoDT, tickTimer_toNat_sub_decrementsIn] at hdt
    rw [hc.committed.st hnoST, tickTimer_toNat_sub_decrementsIn] at hst
    exact ⟨hdt, hst, hcyc.trans (nextCyc_val_add_mod s.cyc n)⟩

/-- Three steps have exactly one decrement among them, wherever the counter stands (R152). -/
theorem decrementsIn_three (c : Fin Config.timerDiv) : decrementsIn c 3 = 1 := by
  have hc : c.val < 3 := c.isLt
  simp only [decrementsIn, Config.timerDiv]
  omega

/-- Settles O43: three steps are a run of three, among which exactly one decrements. -/
theorem threeStepsDecrementOnce : Obligations.ThreeStepsDecrementOnce := by
  refine ⟨fun a b c d hab hbc hcd _ hd hno => ?_, fun n s t hrun ht hno => timers_of_run hrun ht hno⟩
  have hrunB : Host.Core.run Sys2Proof.core 1 a = .next b := run_succ_of_next 0 a b hab
  have hrunC : Host.Core.run Sys2Proof.core 2 a = .next c :=
    (run_succ_of_next 1 a b hab).trans (run_succ_of_next 0 b c hbc)
  have hrunD : Host.Core.run Sys2Proof.core 3 a = .next d :=
    (run_succ_of_next 2 a b hab).trans ((run_succ_of_next 1 b c hbc).trans (run_succ_of_next 0 c d hcd))
  have hnone : SetsNoTimer 3 a := by
    intro k u w x hk hrun
    have hu : u ∈ [a, b, c] := by
      match k, hk with
      | 0, _ => cases hrun; simp
      | 1, _ => cases hrunB.symm.trans hrun; simp
      | 2, _ => cases hrunC.symm.trans hrun; simp
    exact hno u hu w x
  obtain ⟨hdt, hst, hcyc⟩ := timers_of_run hrunD hd hnone
  rw [decrementsIn_three] at hdt hst
  refine ⟨hdt, hst, Fin.ext (hcyc.trans ?_)⟩
  rw [Nat.add_mod_right]
  exact Nat.mod_eq_of_lt a.cyc.isLt

/-! ### The screen (R155) -/

/-- Settles O49: a fault leaves the screen alone, and a committed step changes it for the two writers only. -/
theorem onlyClearAndDrawChangeScreen : Obligations.OnlyClearAndDrawChangeScreen := by
  intro s t w px py hf hw h hne
  obtain hc | ⟨f, -, rfl⟩ := fetched_step_cases hf hw h
  · exact hc.writes.screen.resolve_left fun hfb => hne (by rw [hfb])
  · exact absurd rfl hne

end Sys2Proof.Machine
end

section
/-! SUPPORT. The statements of 70_reset_and_hazards.md: the program load, accepted, oversize or ignored, a word placed where
the next fetch reads it, and the finished program. -/

namespace Sys2Proof.Machine

variable {s t : State}

/-! ### When a load is accepted (R182) -/

/-- A load is accepted while the window is open and the engine runs. -/
theorem loadAccepted_iff : s.loadAccepted = true ↔ s.loadOpen = true ∧ s.fault = none := by
  simp [State.loadAccepted, State.halted]

/-- A load that is not accepted is ignored. -/
theorem loadProgram_of_not_accepted (bytes : List Byte) (h : ¬s.loadAccepted = true) : s.loadProgram bytes = s :=
  if_neg h

/-- A closed window accepts no load. -/
theorem loadProgram_of_loadOpen_false (bytes : List Byte) (h : s.loadOpen = false) : s.loadProgram bytes = s :=
  loadProgram_of_not_accepted bytes fun ha => Bool.false_ne_true (h.symm.trans (loadAccepted_iff.mp ha).1)

/-- A halted engine accepts no load (R145). -/
theorem loadProgram_of_halted (bytes : List Byte) (h : s.fault ≠ none) : s.loadProgram bytes = s :=
  loadProgram_of_not_accepted bytes fun ha => h (loadAccepted_iff.mp ha).2

/-- An accepted load of a program that does not fit takes `ProgramTooLarge`, and closes the load window (R146, R184). -/
theorem loadProgram_of_oversize {bytes : List Byte} (ha : s.loadAccepted = true) (hlen : bytes.length > 3584) :
    s.loadProgram bytes = { s.takeFault .programTooLarge with loadOpen := false } := by
  unfold State.loadProgram
  rw [if_pos ha]
  exact if_neg hlen.not_ge

/-- An accepted load, whatever its length, closes the window (R182). -/
theorem loadProgram_loadOpen {bytes : List Byte} (ha : s.loadAccepted = true) :
    (s.loadProgram bytes).loadOpen = false := by
  by_cases hlen : bytes.length ≤ 3584
  · rw [loadProgram_of_fits ha hlen]
  · rw [loadProgram_of_oversize ha (not_le.mp hlen)]

/-! ### The three outcomes of a load (R146, R182, R183) -/

/-- Settles O58: the load takes the fault only, and a halted engine does not change. -/
theorem oversizeLoadHalts : Obligations.OversizeLoadHalts := by
  intro s bytes n ha hlen
  rw [loadProgram_of_oversize ha hlen]
  exact ⟨rfl, rfl, run_of_halted n (Option.some_ne_none _)⟩

/-- Settles O59: an accepted load closes the window, and so does a committed step; a faulting step halts the engine. -/
theorem laterLoadsAreIgnored : Obligations.LaterLoadsAreIgnored := by
  refine fun s t p q => ⟨?_, fun hf h => ?_⟩
  · by_cases ha : s.loadAccepted = true
    · exact loadProgram_of_loadOpen_false q (loadProgram_loadOpen ha)
    · rw [loadProgram_of_not_accepted p ha, loadProgram_of_not_accepted q ha]
  · obtain ⟨f, rfl⟩ | ⟨w, -, hc⟩ := running_step_cases hf h
    · exact loadProgram_of_halted q (Option.some_ne_none f)
    · exact loadProgram_of_loadOpen_false q hc.committed.loadOpen

/-- A byte outside the loaded program reads as before (R183). -/
theorem sameMemoryOutside_loadProgram {bytes : List Byte} (ha : s.loadAccepted = true) (hlen : bytes.length ≤ 3584) :
    SameMemoryOutside 0x200 bytes.length s (s.loadProgram bytes) := by
  rw [loadProgram_of_fits ha hlen]
  exact fun a => byteAt_store_of_outside s 0x200 a bytes

/-- A load that fits changes memory and the load window only (R183). -/
theorem loadProgram_frame {bytes : List Byte} (ha : s.loadAccepted = true) (hlen : bytes.length ≤ 3584) :
    s.loadProgram bytes = { s with mem := (s.loadProgram bytes).mem, loadOpen := false } := by
  rw [loadProgram_of_fits ha hlen]
  rfl

/-- The first two bytes of a loaded program are the word fetched at 0x200 (R44, R183). -/
theorem fetchWord_loadProgram {hi lo : Byte} {rest : List Byte} (ha : s.loadAccepted = true) (hm : s.MemoryCanonical)
    (hlen : (hi :: lo :: rest).length ≤ 3584) (hpc : s.pc = 0x200) :
    (s.loadProgram (hi :: lo :: rest)).fetchWord = .ok (wordOfBytes hi lo) := by
  have hpc' : (s.loadProgram (hi :: lo :: rest)).pc.toNat = 0x200 := by rw [loadProgram_frame ha hlen, hpc]; rfl
  have hhi := byteAt_loadProgram (j := 0) ha hm hlen rfl
  have hlo := byteAt_loadProgram (j := 1) ha hm hlen rfl
  rw [fetchWord_ok _ (by omega), hpc']
  exact congrArg Except.ok (congrArg₂ wordOfBytes hhi hlo)

/-- Settles O57: the load is one store at 0x200, and its first word is fetched there. -/
theorem loadCopiesProgram : Obligations.LoadCopiesProgram := by
  refine fun s bytes ha hm hlen => ⟨fun j b => byteAt_loadProgram ha hm hlen, sameMemoryOutside_loadProgram ha hlen,
    loadProgram_frame ha hlen, ?_⟩
  rintro hi lo rest rfl hpc
  have hf : (s.loadProgram (hi :: lo :: rest)).fault = none := by
    rw [loadProgram_frame ha hlen]
    exact (loadAccepted_iff.mp ha).2
  exact step_of_fetch _ hf _ (fetchWord_loadProgram ha hm hlen hpc)

/-! ### A word placed for the next fetch (log entry 21) -/

/-- A word can be fetched where the host places one (R44). -/
theorem toNat_fetchSlot_le (s : State) : s.fetchSlot.toNat ≤ 0xFFE := by
  unfold State.fetchSlot
  split
  · next h => exact h
  · decide

/-- The placed word is the one that is fetched (R44). -/
theorem fetchWord_placeWord (w : Word) (hm : s.MemoryCanonical) : (s.placeWord w).fetchWord = .ok w := by
  have hslot := toNat_fetchSlot_le s
  have hbyte : ∀ (j : Nat) (hj : j < 2),
      (s.placeWord w).byteAt (s.fetchSlot.toNat + j) = [highByte w, lowByte w][j] := fun j hj =>
    Memory.read_writeBytes_inside [highByte w, lowByte w] s.mem _ j hj (Nat.add_le_add_right hslot 2) hm
  calc (s.placeWord w).fetchWord
    _ = .ok (wordOfBytes _ _) := fetchWord_ok (s.placeWord w) hslot
    _ = .ok (wordOfBytes (highByte w) (lowByte w)) :=
      congrArg Except.ok (congrArg₂ wordOfBytes (hbyte 0 (by decide)) (hbyte 1 (by decide)))
    _ = .ok w := by rw [wordOfBytes_bytes]

/-- The decoder of a table row decodes the word whose bits the row gives. -/
theorem decodeTableWord_16 (w : Word) : decodeTableWord 16 w.toNat = some (decode w) := by
  rw [decodeTableWord, tableWord_16, decodeBytes_bytes]

/-- Settles O60: the placed word is fetched, and placing it clears `FAULT`. -/
theorem placedWordRunsNext : Obligations.PlacedWordRunsNext := by
  refine fun s w hm => ⟨?_, decodeTableWord_16 w⟩
  rw [State.withFetchWord, tableWord_16]
  exact step_of_fetch (s.placeWord w) rfl w (fetchWord_placeWord w hm)

/-! ### The finished program (R188) -/

/-- Where a word can be fetched, the 12 bits of a `JP` hold the whole of `PC` (R63). -/
theorem zextAddr_setWidth_pc (hpc : s.pc.toNat ≤ 0xFFE) : zextAddr (s.pc.setWidth 12) = s.pc := by
  apply BitVec.eq_of_toNat_eq
  rw [toNat_zextAddr, BitVec.toNat_setWidth]
  omega

/-- Settles O55: the `JP` fetched at `PC` commits the advanced state with `PC` put back, where the same word is fetched. -/
theorem finishedProgramStaysFinished : Obligations.FinishedProgramStaysFinished := by
  rintro s ⟨hf, hpc, hw⟩
  have hs : step s = .next (s.advance.setPc s.pc) := by
    rw [step_of_fetch s hf _ hw, decode_encode _ rfl, exec_jpAddr, zextAddr_setWidth_pc hpc]
  exact ⟨_, hs, ⟨hf, hpc, hw⟩, rfl, (registerFrame_advance s).setPc s.pc⟩

end Sys2Proof.Machine
end
